-- ==== Sys2Proof/Word.lean ====
section
/-! DEFINITION. The machine's word types (spec/00_scope.md R8, R11): every value is unsigned. -/
namespace Sys2Proof

/-- A memory cell, a general register, a timer, an 8-bit immediate `nn` (R8, R71). -/
abbrev Byte := BitVec 8

/-- An opcode, the program counter, the address register, a stack entry (R8). -/
abbrev Word := BitVec 16

/-- The 4-bit fields of an opcode: a sprite height, a key id (R71, R8). -/
abbrev Nibble := BitVec 4

/-- The index of a general register, the field x or y of an opcode (R22, R71). -/
abbrev RegId := BitVec 4

/-- The 12-bit immediate `nnn` (R71). -/
abbrev Addr := BitVec 12

end Sys2Proof
end

