-- ==== Sys2Proof/Syntax.lean ====
section
/-! DEFINITION. The instructions: one constructor per row of spec/opcode_table.json, in the table's order
(spec/30_encoding.md R74). The fields are those of R71, kept whole: `y` of a shift too (R76). -/
namespace Sys2Proof

/-- The 35 instructions of 30_encoding.md R74. -/
inductive Instr where
  | sys (nnn : Addr)
  | cls
  | ret
  | jp (nnn : Addr)
  | call (nnn : Addr)
  | seImm (x : RegId) (nn : Byte)
  | sneImm (x : RegId) (nn : Byte)
  | seReg (x y : RegId)
  | ldImm (x : RegId) (nn : Byte)
  | addImm (x : RegId) (nn : Byte)
  | ldReg (x y : RegId)
  | orReg (x y : RegId)
  | andReg (x y : RegId)
  | xorReg (x y : RegId)
  | addReg (x y : RegId)
  | sub (x y : RegId)
  | shr (x y : RegId)
  | subn (x y : RegId)
  | shl (x y : RegId)
  | sneReg (x y : RegId)
  | ldI (nnn : Addr)
  | jpV0 (nnn : Addr)
  | rnd (x : RegId) (nn : Byte)
  | drw (x y : RegId) (n : Nibble)
  | skp (x : RegId)
  | sknp (x : RegId)
  | ldVxDt (x : RegId)
  | ldVxK (x : RegId)
  | ldDtVx (x : RegId)
  | ldStVx (x : RegId)
  | addI (x : RegId)
  | ldF (x : RegId)
  | ldB (x : RegId)
  | ldMemVx (x : RegId)
  | ldVxMem (x : RegId)
  deriving DecidableEq, Repr

end Sys2Proof
end

