-- ==== Sys2Proof/WellFormed.lean ====
section
/-! DEFINITION. Which terms of Instr stand for an opcode. The field types bound every field, so the only check
is that SYS leaves 00E0 and 00EE to CLS and RET (spec/30_encoding.md R73, R75). -/
namespace Sys2Proof

/-- The instruction stands for an opcode: a SYS is neither 00E0 nor 00EE (30_encoding.md R73). -/
def Instr.wellFormed : Instr → Bool
  | .sys nnn => nnn != 0x0E0#12 && nnn != 0x0EE#12
  | _ => true

end Sys2Proof
end

