-- ==== Sys2Proof/Config.lean ====
section
/-! DEFINITION. What is fixed for the machine (spec/00_scope.md R8), the types of its parameters, and the
free values: the draws of spec/40_step_cycle.md R111, constants without a body, of which nothing can be proved. -/
namespace Sys2Proof.Config

/-- The highest address of memory; MEM_SIZE is 4096 (00_scope.md R8, 20_memory.md R51). -/
def topAddress : Nat := 0xFFF

/-- Where ROM_BYTES are loaded and where execution starts (00_scope.md R8, 20_memory.md R58). -/
def programOrigin : Nat := 0x200

/-- Where FONT_BYTES are loaded (00_scope.md R8). -/
def fontOrigin : Nat := 0x000

/-- Bytes per glyph (00_scope.md R8). -/
def fontHeight : Nat := 5

/-- SHIFT_SOURCE: which register 8xy6 and 8xyE shift (00_scope.md R8, decision D6). -/
inductive ShiftSource where
  | vx
  | vy
  deriving DecidableEq, Repr

/-- VF_WRITE_ORDER: which write is last when a result and a flag both go to VF (10_state.md R25, decision D7). -/
inductive VfWriteOrder where
  | flagLast
  | resultLast
  deriving DecidableEq, Repr

/-- FONT_DIGIT_MASK: whether Fx29 reduces the digit to its low nibble (43_index_memory.md R164, decision D9). -/
inductive FontDigitMask where
  | none
  | lowNibble
  deriving DecidableEq, Repr

/-- FREE VALUE (log 1). The random byte of the n-th draw (R111, R152): any byte, related to no other draw. -/
opaque rand : Nat → Byte

/-- FREE VALUE (log 1). The set of pressed keys seen at the n-th draw (R111, R190): bit k is key id k. -/
opaque pressedKeys : Nat → BitVec 16

/-- FREE VALUE (log 3). What the host does when `events` lists nothing: `none` is a Tick, `some k` the event that
moves the core on, a Step, or KeyPress(k) in a key wait (R100, R113, 60_exceptions.md R213). Any endless
interleaving is a value of it. -/
opaque hostChoice : Nat → Option Nibble

end Sys2Proof.Config
end

