-- ==== Sys2Proof/Machine/State.lean ====
section
/-! DEFINITION. The machine's state, plain data (spec/10_state.md R20), its fault kinds and statuses, the
reasons a step of the model can stop, and the state after reset (10_state.md R36). -/
namespace Sys2Proof.Machine

/-- The kinds of fault the core raises (60_exceptions.md R200). Taking one is a next state, not a stop. -/
inductive FaultKind where
  | invalidOpcode
  | stackOverflow
  | stackUnderflow
  | memoryBounds
  deriving DecidableEq, Repr

/-- The run status (10_state.md R33). Halted is no value of its own: it is `running` with pc above 0xFFE. -/
inductive RunStatus where
  | running
  | keyWait (x : RegId)
  | faulted (kind : FaultKind) (opcode : Word) (fetchPc : Word)
  deriving DecidableEq, Repr

/-- What a Step returns to the host (40_step_cycle.md R108). -/
inductive Status where
  | ok
  | redraw
  | halt
  | blocked
  | fault (kind : FaultKind) (opcode : Word) (fetchPc : Word)
  deriving DecidableEq, Repr

/-- An event the host drives the core with (40_step_cycle.md R110). -/
inductive HostEvent where
  | step
  | tick
  | keyPress (k : Nibble)
  deriving DecidableEq, Repr

/-- Memory: the listed cells; an address that is not listed holds 0x00 (10_state.md R36, log 10). -/
abbrev Memory := List Host.Cell

/-- The framebuffer, `fb[c][r]` with column c in 0..63 and row r in 0..31 (10_state.md R32). -/
abbrev Framebuffer := Vector (Vector Bool 32) 64

/-- The machine's state. `mem` to `run` are the spec's record (10_state.md R20); `status` is the last status
a Step returned (log 5); `draws` and `events` are the model's own (log 1, log 2). -/
structure State where
  /-- memory, addresses 0x000..0xFFF (R20, 20_memory.md R50) -/
  mem : Memory
  /-- V0..VF (R22) -/
  V : Vector Byte 16
  /-- the address register (R29) -/
  I : Word
  /-- the program counter (R26) -/
  pc : Word
  /-- the call stack, its last element the top (R28) -/
  stack : List Word
  /-- the delay timer (R30) -/
  DT : Byte
  /-- the sound timer (R31) -/
  ST : Byte
  /-- the framebuffer (R32) -/
  fb : Framebuffer
  /-- the run status (R33) -/
  run : RunStatus
  /-- the status the last Step returned; `none` before the first (40_step_cycle.md R108, log 5) -/
  status : Option Status
  /-- the model's own: how many free values have been drawn (log 1) -/
  draws : Nat
  /-- the model's own: what the host delivers first, oldest first, before its moves are free (log 2, log 3) -/
  events : List HostEvent
  deriving DecidableEq, Repr

/-- Why the model stops where the spec gives no transition. -/
inductive Fault where
  /-- Raised by `deliver` (Machine/Cycle.lean) when `events` holds an event that 40_step_cycle.md R100 or
  45_input_timers.md R194 does not enable: a Step in a key wait, a KeyPress outside one. Safe: the host
  cannot issue it (log 4). No instruction raises it. -/
  | eventNotEnabled (e : HostEvent)
  deriving DecidableEq, Repr

/-- What has no meaning in the model. -/
inductive Refusal where
  /-- An instruction without a meaning yet. No arm answers it. Safe. -/
  | notModelled (mnemonic : String)
  /-- Raised by `load` (Machine/Boot.lean) for bytes that would pass 0xFFF: 70_reset_and_hazards.md R232
  refuses the launch. Safe (log 13). No step and no instruction raises it. -/
  | loadPastTop
  deriving DecidableEq, Repr

/-- The outcome of an instruction, an event or a step. -/
abbrev Result := Host.Outcome State Fault Refusal

/-- The state after reset, before the loader runs (10_state.md R36). `status`, `draws` and `events` are the
model's own (logs 5, 1, 2). -/
def State.reset : State where
  mem := []
  V := Vector.replicate 16 0x00#8
  I := 0x000#16
  pc := BitVec.ofNat 16 Config.programOrigin
  stack := []
  DT := 0x00#8
  ST := 0x00#8
  fb := Vector.replicate 64 (Vector.replicate 32 false)
  run := .running
  status := none
  draws := 0
  events := []

end Sys2Proof.Machine
end

