-- ==== Sys2Proof/Machine/Framebuffer.lean ====
section
/-! DEFINITION. The framebuffer's operations: clear, the sprite-blit engine and the pixel read
(spec/44_display.md R180-R184). -/
namespace Sys2Proof.Machine

/-- `get(x, y)`: the pixel at column c and row r; outside the grid it has no meaning (R184, log 15). -/
def Framebuffer.get (fb : Framebuffer) (c : Fin 64) (r : Fin 32) : Bool := fb[c][r]

/-- The pixel at column c and row r written. -/
def Framebuffer.set (fb : Framebuffer) (c : Fin 64) (r : Fin 32) (b : Bool) : Framebuffer :=
  Vector.set fb c (Vector.set fb[c] r b)

/-- `clear()`: every pixel false (R180). -/
def Framebuffer.clear : Framebuffer := Vector.replicate 64 (Vector.replicate 32 false)

/-- The innermost body of draw_sprite, on the grid and the running collision flag: a target off the grid is
discarded, else the pixel is toggled under a 1 bit and the flag takes (previous and bit) (R181). -/
def blitPixel (bit : Bool) (tx ty : Nat) (d : Framebuffer × Bool) : Framebuffer × Bool :=
  if h : tx < 64 ∧ ty < 32 then
    let prev := Framebuffer.get d.1 ⟨tx, h.1⟩ ⟨ty, h.2⟩
    (if bit then Framebuffer.set d.1 ⟨tx, h.1⟩ ⟨ty, h.2⟩ (!prev) else d.1, d.2 || (prev && bit))
  else d

/-- The columns from `col` to 7 of one sprite row, most significant bit first; `left` of them are left (R181). -/
def blitColumns (b : Byte) (xa ty : Nat) : Nat → Nat → Framebuffer × Bool → Framebuffer × Bool
  | _, 0, d => d
  | col, left + 1, d =>
    blitColumns b xa ty (col + 1) left (blitPixel (b.getLsbD (7 - col)) (xa + col) ty d)

/-- The sprite's rows in order, the first at row `ty` (R181). -/
def blitRows (xa : Nat) : Nat → List Byte → Framebuffer × Bool → Framebuffer × Bool
  | _, [], d => d
  | ty, b :: bs, d => blitRows xa (ty + 1) bs (blitColumns b xa ty 0 8 d)

/-- `draw_sprite(xa, ya, bytes)`: the new grid and whether a set pixel was hit (R181). The anchor is not
reduced modulo the grid. -/
def drawSprite (fb : Framebuffer) (xa ya : Byte) (bytes : List Byte) : Framebuffer × Bool :=
  blitRows xa.toNat ya.toNat bytes (fb, false)

end Sys2Proof.Machine
end

