-- ==== Sys2Proof/Machine/Memory.lean ====
section
/-! DEFINITION. Memory as a canonical list of cells, and the single-byte accesses of spec/20_memory.md R52-R60. -/
namespace Sys2Proof.Machine

/-- What an unlisted address reads as (10_state.md R36, decision D4, log 10). -/
def unlistedByte : Byte := 0x00#8

/-- The canonical form: addresses strictly rising, none above 0xFFF, no cell that reads as an unlisted one. -/
abbrev Memory.wf (m : Memory) : Prop :=
  m.Pairwise (fun a b => a.1 < b.1) ∧ ∀ c ∈ m, c.1 ≤ Config.topAddress ∧ c.2 ≠ unlistedByte

/-- The byte at an address. Reading has no effect (R57). -/
def Memory.read : Memory → Nat → Byte
  | [], _ => unlistedByte
  | (k, b) :: m, a => if k = a then b else Memory.read m a

/-- The memory with no cell listed at `a`. -/
def Memory.erase (m : Memory) (a : Nat) : Memory := m.filter (fun c => c.1 != a)

/-- The cell (a, b) put before the first cell of a higher address. -/
def Memory.insert (a : Nat) (b : Byte) : Memory → Memory
  | [] => [(a, b)]
  | (k, c) :: m => if a < k then (a, b) :: (k, c) :: m else (k, c) :: Memory.insert a b m

/-- One byte written. There is no cell above 0xFFF: every instruction checks its range first (R54), so that no
store reaches one (10_state.md R35, log 12). -/
def Memory.write (m : Memory) (a : Nat) (b : Byte) : Memory :=
  if a ≤ Config.topAddress then
    if b = unlistedByte then m.erase a else Memory.insert a b (m.erase a)
  else m

/-- The bytes at a, a+1, ..., in ascending order (R60). -/
def Memory.readBytes (m : Memory) (a : Nat) : Nat → List Byte
  | 0 => []
  | n + 1 => m.read a :: Memory.readBytes m (a + 1) n

/-- The bytes written at a, a+1, ..., in ascending order (R60). -/
def Memory.writeBytes (m : Memory) (a : Nat) : List Byte → Memory
  | [] => m
  | b :: bs => Memory.writeBytes (m.write a b) (a + 1) bs

/-- in_bounds_range(a, len) of R54(b). -/
def inBoundsRange (a len : Nat) : Bool := len == 0 || decide (a + len - 1 ≤ Config.topAddress)

/-- in_bounds_fetch(pc) of R54(a). -/
def inBoundsFetch (pc : Word) : Bool := decide (pc.toNat + 1 ≤ Config.topAddress)

end Sys2Proof.Machine
end

