-- ==== Sys2Proof/Machine/Ops.lean ====
section
/-! DEFINITION. The named operations over the state: registers, memory, stack, the ends of an instruction,
taking a fault, and the entry points Tick and KeyPress. -/
namespace Sys2Proof.Machine

/-- The value of V[x] (spec/10_state.md R22). -/
def State.getV (s : State) (x : RegId) : Byte := s.V.get x.toFin

/-- V[x] <- b (10_state.md R22). -/
def State.setV (s : State) (x : RegId) (b : Byte) : State := { s with V := s.V.set x.toNat b x.isLt }

/-- I <- w (10_state.md R29). -/
def State.setI (s : State) (w : Word) : State := { s with I := w }

/-- pc <- w (10_state.md R26). -/
def State.setPc (s : State) (w : Word) : State := { s with pc := w }

/-- The call stack replaced (10_state.md R28). -/
def State.setStack (s : State) (st : List Word) : State := { s with stack := st }

/-- DT <- b (10_state.md R30). -/
def State.setDT (s : State) (b : Byte) : State := { s with DT := b }

/-- ST <- b (10_state.md R31). -/
def State.setST (s : State) (b : Byte) : State := { s with ST := b }

/-- The framebuffer replaced (10_state.md R32). -/
def State.setFb (s : State) (fb : Framebuffer) : State := { s with fb := fb }

/-- Memory replaced (20_memory.md R50). -/
def State.setMem (s : State) (m : Memory) : State := { s with mem := m }

/-- run <- r (10_state.md R33). -/
def State.setRun (s : State) (r : RunStatus) : State := { s with run := r }

/-- status <- st (40_step_cycle.md R108). -/
def State.setStatus (s : State) (st : Status) : State := { s with status := some st }

/-- One free value drawn (log 1). -/
def State.draw (s : State) : State := { s with draws := s.draws + 1 }

/-- The host's listed events replaced (log 2). -/
def State.setEvents (s : State) (es : List HostEvent) : State := { s with events := es }

/-- The byte of memory at an address (20_memory.md R50). -/
def State.readByte (s : State) (a : Nat) : Byte := s.mem.read a

/-- V[k], V[k+1], ... <- the bytes, in ascending order (43_index_memory.md R168). -/
def State.setRegs (s : State) (k : Nat) : List Byte → State
  | [] => s
  | b :: bs => State.setRegs (s.setV (BitVec.ofNat 4 k) b) (k + 1) bs

/-- The values of V[k], V[k+1], ..., `n` of them (43_index_memory.md R166). -/
def State.getRegs (s : State) (k : Nat) : Nat → List Byte
  | 0 => []
  | n + 1 => s.getV (BitVec.ofNat 4 k) :: State.getRegs s (k + 1) n

/-- push(v): v is the new top, or nothing when the stack is at capacity (10_state.md R28). -/
def State.push (capacity : Nat) (s : State) (v : Word) : Option State :=
  if s.stack.length < capacity then some (s.setStack (s.stack ++ [v])) else none

/-- pop(): the top and the state without it, or nothing when the stack is empty (10_state.md R28). -/
def State.pop (s : State) : Option (Word × State) :=
  match s.stack.getLast? with
  | some top => some (top, s.setStack s.stack.dropLast)
  | none => none

/-- A taken skip steps over one 2-byte word (41_flow.md R120, R125). -/
def State.skipIf (s : State) (taken : Bool) : State := if taken then s.setPc (s.pc + 2) else s

/-- The instruction completes and the step returns `st` (40_step_cycle.md R105, R108). -/
def finish (st : Status) (s : State) : Result := .next (s.setStatus st)

/-- TAKING A FAULT, the one operation: run <- Faulted(kind, op, f) and status <- FAULT(kind, op, f); pc keeps the
advanced value f + 2, so f is pc - 2; nothing else is written (40_step_cycle.md R106, 60_exceptions.md R201,
logs 8 and 9). There is no handler, and no return from a fault (60_exceptions.md R205, R206). -/
def takeFault (kind : FaultKind) (op : Word) (s : State) : Result :=
  finish (.fault kind op (s.pc - 2)) (s.setRun (.faulted kind op (s.pc - 2)))

/-- `raise kind` inside the instruction `i`: its opcode is the word it was decoded from (log 8). -/
def raise (kind : FaultKind) (i : Instr) (s : State) : Result := takeFault kind (encode i) s

/-- One timer decrement, floored at zero (60_exceptions.md R212). -/
def countDown (t : Byte) : Byte := if t = 0 then 0 else t - 1

/-- The entry point Tick: both timers, nothing else; enabled in every state (60_exceptions.md R212, R213). -/
def tick (s : State) : State := (s.setDT (countDown s.DT)).setST (countDown s.ST)

/-- The entry point KeyPress(k): enabled only in a key wait, it writes the key and completes the suspended step
(45_input_timers.md R194). -/
def keyPress (k : Nibble) (s : State) : Result :=
  match s.run with
  | .keyWait x => finish .ok ((s.setV x (k.setWidth 8)).setRun .running)
  | .running => .fault (.eventNotEnabled (.keyPress k))
  | .faulted _ _ _ => .fault (.eventNotEnabled (.keyPress k))

/-- The output level sound_on (60_exceptions.md R216). -/
def State.soundOn (s : State) : Bool := s.ST != 0

/-- The host's read port of the framebuffer (44_display.md R184). -/
def State.pixel (s : State) (c : Fin 64) (r : Fin 32) : Bool := Framebuffer.get s.fb c r

end Sys2Proof.Machine
end

