-- ==== Sys2Proof/Machine/Operands.lean ====
section
/-! DEFINITION. The operand forms: immediates, the shift source, the font address, decimal digits, the ranges
of the bulk accesses and I after them. -/
namespace Sys2Proof.Machine

/-- zext_16 of a byte (spec/00_scope.md R11). -/
def zextByte (b : Byte) : Word := b.setWidth 16

/-- zext_16(nnn) (30_encoding.md R72). -/
def zextAddr (nnn : Addr) : Word := nnn.setWidth 16

/-- The value a shift shifts: V[x] or V[y] as SHIFT_SOURCE says (42_alu.md R149, R151). -/
def shiftOperand (src : Config.ShiftSource) (x y : RegId) (s : State) : Byte :=
  match src with
  | .vx => s.getV x
  | .vy => s.getV y

/-- The digit Fx29 uses (43_index_memory.md R164). -/
def fontDigit (mask : Config.FontDigitMask) (v : Byte) : Byte :=
  match mask with
  | .none => v
  | .lowNibble => v &&& 0x0F#8

/-- FONT_ORIGIN + d * FONT_HEIGHT (43_index_memory.md R164). -/
def fontAddress (mask : Config.FontDigitMask) (v : Byte) : Word :=
  BitVec.ofNat 16 (Config.fontOrigin + (fontDigit mask v).toNat * Config.fontHeight)

/-- Hundreds, tens, units (43_index_memory.md R165). -/
def bcdDigits (v : Byte) : List Byte :=
  [BitVec.ofNat 8 (v.toNat / 100), BitVec.ofNat 8 (v.toNat / 10 % 10), BitVec.ofNat 8 (v.toNat % 10)]

/-- How many registers Fx55 and Fx65 move: V0..Vx (43_index_memory.md R166, R168). -/
def regCount (x : RegId) : Nat := x.toNat + 1

/-- I after Fx55 and Fx65: unchanged, or (I + x + 1) & 0xFFF under LOADSTORE_INCREMENT_I
(43_index_memory.md R167). -/
def bumpI (increment : Bool) (x : RegId) (s : State) : State :=
  if increment then s.setI (BitVec.ofNat 16 ((s.I.toNat + x.toNat + 1) % 0x1000)) else s

/-- Whether the value v is an id in the pressed-key set; an id above 0xF is in none (45_input_timers.md R190). -/
def keyPressed (pressed : BitVec 16) (v : Byte) : Bool := pressed.getLsbD v.toNat

end Sys2Proof.Machine
end

