-- ==== Sys2Proof/Machine/Flags.lean ====
section
/-! DEFINITION. Every flag computation, and the order in which a result and a flag are written
(spec/10_state.md R24, R25). -/
namespace Sys2Proof.Machine

/-- The flag register VF (10_state.md R24). -/
def vf : RegId := 0xF#4

/-- A flag write stores 0 or 1 (10_state.md R24). -/
def flagByte (b : Bool) : Byte := if b then 0x01#8 else 0x00#8

/-- Carry of 8xy4: the exact sum passes 255 (42_alu.md R147). -/
def carryFlag (vx vy : Byte) : Bool := decide (vx.toNat + vy.toNat > 255)

/-- NOT borrow of a - b: a >= b (42_alu.md R148, R150). -/
def notBorrowFlag (a b : Byte) : Bool := decide (a.toNat ≥ b.toNat)

/-- Bit 0 before the shift (42_alu.md R149). -/
def shiftedOutRight (v : Byte) : Bool := v.getLsbD 0

/-- Bit 7 before the shift (42_alu.md R151). -/
def shiftedOutLeft (v : Byte) : Bool := v.getLsbD 7

/-- 12-bit overflow of Fx1E: the exact sum passes 0xFFF (43_index_memory.md R163). -/
def overflow12Flag (i : Word) (vx : Byte) : Bool := decide (i.toNat + vx.toNat > 0xFFF)

/-- A result to V[x] and a flag to VF, the last write as VF_WRITE_ORDER says (10_state.md R25). -/
def writeResultAndFlag (order : Config.VfWriteOrder) (x : RegId) (r : Byte) (f : Bool) (s : State) : State :=
  match order with
  | .flagLast => (s.setV x r).setV vf (flagByte f)
  | .resultLast => (s.setV vf (flagByte f)).setV x r

end Sys2Proof.Machine
end

