-- ==== Sys2Proof/Machine/Params.lean ====
section
/-! DEFINITION. The values exec uses for the parameters of spec/00_scope.md R8: the spec's defaults (log 7). The
shared operations take each as an argument, so that both choices are modelled. -/
namespace Sys2Proof.Machine

/-- STACK_CAPACITY, default 16 (R8, decision D3). -/
def stackCapacity : Nat := 16

/-- SHIFT_SOURCE, default VX (R8, decision D6). -/
def shiftSource : Config.ShiftSource := .vx

/-- VF_WRITE_ORDER, default FLAG_LAST (R8, decision D7). -/
def vfWriteOrder : Config.VfWriteOrder := .flagLast

/-- LOADSTORE_INCREMENT_I, default false (R8, decision D8). -/
def loadStoreIncrementI : Bool := false

/-- FONT_DIGIT_MASK, default NONE (R8, decision D9). -/
def fontDigitMask : Config.FontDigitMask := .none

end Sys2Proof.Machine
end

