-- ==== Sys2Proof/Machine/Alu.lean ====
section
/-! DEFINITION. Register arithmetic (spec/42_alu.md). Results wrap to 8 bits (R140); all operands are read before
any write (00_scope.md R13). -/
namespace Sys2Proof.Machine

/-- An operation that writes V[x] alone and completes (42_alu.md R140). -/
def writeResult (x : RegId) (r : Byte) (s : State) : Result := finish .ok (s.setV x r)

/-- 8xy4 under a given VF_WRITE_ORDER (42_alu.md R147). -/
def addRegWith (order : Config.VfWriteOrder) (x y : RegId) (s : State) : Result :=
  finish .ok (writeResultAndFlag order x (s.getV x + s.getV y) (carryFlag (s.getV x) (s.getV y)) s)

/-- a - b to V[x], NOT borrow to VF, for 8xy5 and 8xy7 (42_alu.md R148, R150). -/
def subtractWith (order : Config.VfWriteOrder) (x : RegId) (a b : Byte) (s : State) : Result :=
  finish .ok (writeResultAndFlag order x (a - b) (notBorrowFlag a b) s)

/-- 8xy6 under given SHIFT_SOURCE and VF_WRITE_ORDER (42_alu.md R149). -/
def shrWith (src : Config.ShiftSource) (order : Config.VfWriteOrder) (x y : RegId) (s : State) : Result :=
  finish .ok
    (writeResultAndFlag order x (shiftOperand src x y s >>> 1) (shiftedOutRight (shiftOperand src x y s)) s)

/-- 8xyE under given SHIFT_SOURCE and VF_WRITE_ORDER (42_alu.md R151). -/
def shlWith (src : Config.ShiftSource) (order : Config.VfWriteOrder) (x y : RegId) (s : State) : Result :=
  finish .ok
    (writeResultAndFlag order x (shiftOperand src x y s <<< 1) (shiftedOutLeft (shiftOperand src x y s)) s)

/-- Cxnn with the drawn byte (42_alu.md R152). -/
def rndWith (drawn : Byte) (x : RegId) (nn : Byte) (s : State) : Result := writeResult x (drawn &&& nn) s

/-- LD Vx, byte 6xnn (42_alu.md R141). -/
def execLdImm (x : RegId) (nn : Byte) (s : State) : Result := writeResult x nn s

/-- ADD Vx, byte 7xnn: no flag (42_alu.md R142). -/
def execAddImm (x : RegId) (nn : Byte) (s : State) : Result := writeResult x (s.getV x + nn) s

/-- LD Vx, Vy 8xy0 (42_alu.md R143). -/
def execLdReg (x y : RegId) (s : State) : Result := writeResult x (s.getV y) s

/-- OR Vx, Vy 8xy1: no flag, VF is not reset (42_alu.md R144). -/
def execOr (x y : RegId) (s : State) : Result := writeResult x (s.getV x ||| s.getV y) s

/-- AND Vx, Vy 8xy2: no flag (42_alu.md R145). -/
def execAnd (x y : RegId) (s : State) : Result := writeResult x (s.getV x &&& s.getV y) s

/-- XOR Vx, Vy 8xy3: no flag (42_alu.md R146). -/
def execXor (x y : RegId) (s : State) : Result := writeResult x (s.getV x ^^^ s.getV y) s

/-- ADD Vx, Vy 8xy4 (42_alu.md R147). -/
def execAddReg (x y : RegId) (s : State) : Result := addRegWith vfWriteOrder x y s

/-- SUB Vx, Vy 8xy5 (42_alu.md R148). -/
def execSub (x y : RegId) (s : State) : Result := subtractWith vfWriteOrder x (s.getV x) (s.getV y) s

/-- SHR Vx, Vy 8xy6 (42_alu.md R149). -/
def execShr (x y : RegId) (s : State) : Result := shrWith shiftSource vfWriteOrder x y s

/-- SUBN Vx, Vy 8xy7 (42_alu.md R150). -/
def execSubn (x y : RegId) (s : State) : Result := subtractWith vfWriteOrder x (s.getV y) (s.getV x) s

/-- SHL Vx, Vy 8xyE (42_alu.md R151). -/
def execShl (x y : RegId) (s : State) : Result := shlWith shiftSource vfWriteOrder x y s

/-- RND Vx, byte Cxnn: the byte is a free value (42_alu.md R152, log 1). -/
def execRnd (x : RegId) (nn : Byte) (s : State) : Result := rndWith (Config.rand s.draws) x nn s.draw

end Sys2Proof.Machine
end

