-- ==== Sys2Proof/Machine/Display.lean ====
section
/-! DEFINITION. The display instructions (spec/44_display.md). -/
namespace Sys2Proof.Machine

/-- CLS 00E0: VF is not written (44_display.md R185). -/
def execCls (s : State) : Result := finish .redraw (s.setFb Framebuffer.clear)

/-- DRW Dxyn: the anchor and the sprite are read first, then the blit, then VF <- collision
(44_display.md R186). -/
def execDrw (x y : RegId) (n : Nibble) (s : State) : Result :=
  if inBoundsRange s.I.toNat n.toNat then
    finish .redraw
      ((s.setFb (drawSprite s.fb (s.getV x) (s.getV y) (s.mem.readBytes s.I.toNat n.toNat)).1).setV vf
        (flagByte (drawSprite s.fb (s.getV x) (s.getV y) (s.mem.readBytes s.I.toNat n.toNat)).2))
  else raise .memoryBounds (.drw x y n) s

end Sys2Proof.Machine
end

