-- ==== Sys2Proof/Machine/Flow.lean ====
section
/-! DEFINITION. Control flow (spec/41_flow.md). Each meaning runs with pc = f + 2 (40_step_cycle.md R105). -/
namespace Sys2Proof.Machine

/-- SYS 0nnn: always InvalidOpcode (41_flow.md R121). -/
def execSys (nnn : Addr) (s : State) : Result := raise .invalidOpcode (.sys nnn) s

/-- RET 00EE (41_flow.md R122). -/
def execRet (s : State) : Result :=
  match s.pop with
  | some (top, s') => finish .ok (s'.setPc top)
  | none => raise .stackUnderflow .ret s

/-- JP 1nnn (41_flow.md R123). -/
def execJp (nnn : Addr) (s : State) : Result := finish .ok (s.setPc (zextAddr nnn))

/-- CALL 2nnn: the advanced pc is pushed (41_flow.md R124). -/
def execCall (nnn : Addr) (s : State) : Result :=
  match s.push stackCapacity s.pc with
  | some s' => finish .ok (s'.setPc (zextAddr nnn))
  | none => raise .stackOverflow (.call nnn) s

/-- SE Vx, byte 3xnn (41_flow.md R125). -/
def execSeImm (x : RegId) (nn : Byte) (s : State) : Result := finish .ok (s.skipIf (s.getV x == nn))

/-- SNE Vx, byte 4xnn (41_flow.md R126). -/
def execSneImm (x : RegId) (nn : Byte) (s : State) : Result := finish .ok (s.skipIf (s.getV x != nn))

/-- SE Vx, Vy 5xy0 (41_flow.md R127). -/
def execSeReg (x y : RegId) (s : State) : Result := finish .ok (s.skipIf (s.getV x == s.getV y))

/-- SNE Vx, Vy 9xy0 (41_flow.md R128). -/
def execSneReg (x y : RegId) (s : State) : Result := finish .ok (s.skipIf (s.getV x != s.getV y))

/-- JP V0, addr Bnnn: the exact sum, no mask (41_flow.md R129). -/
def execJpV0 (nnn : Addr) (s : State) : Result :=
  finish .ok (s.setPc (zextByte (s.getV 0x0#4) + zextAddr nnn))

end Sys2Proof.Machine
end

