-- ==== Sys2Proof/Machine/IndexMemory.lean ====
section
/-! DEFINITION. The address register and memory (spec/43_index_memory.md). The whole range of an access is
checked before the first byte moves (20_memory.md R54). -/
namespace Sys2Proof.Machine

/-- Fx29 under a given FONT_DIGIT_MASK (43_index_memory.md R164). -/
def ldFWith (mask : Config.FontDigitMask) (x : RegId) (s : State) : Result :=
  finish .ok (s.setI (fontAddress mask (s.getV x)))

/-- Fx55 under a given LOADSTORE_INCREMENT_I (43_index_memory.md R166, R167). -/
def ldMemVxWith (increment : Bool) (x : RegId) (s : State) : Result :=
  if inBoundsRange s.I.toNat (regCount x) then
    finish .ok (bumpI increment x (s.setMem (s.mem.writeBytes s.I.toNat (s.getRegs 0 (regCount x)))))
  else raise .memoryBounds (.ldMemVx x) s

/-- Fx65 under a given LOADSTORE_INCREMENT_I (43_index_memory.md R168, R167). -/
def ldVxMemWith (increment : Bool) (x : RegId) (s : State) : Result :=
  if inBoundsRange s.I.toNat (regCount x) then
    finish .ok (bumpI increment x (s.setRegs 0 (s.mem.readBytes s.I.toNat (regCount x))))
  else raise .memoryBounds (.ldVxMem x) s

/-- LD I, addr Annn (43_index_memory.md R161). -/
def execLdI (nnn : Addr) (s : State) : Result := finish .ok (s.setI (zextAddr nnn))

/-- ADD I, Vx Fx1E: the sum cut to 12 bits, VF the overflow (43_index_memory.md R163). -/
def execAddI (x : RegId) (s : State) : Result :=
  finish .ok
    ((s.setI (BitVec.ofNat 16 ((s.I.toNat + (s.getV x).toNat) % 0x1000))).setV vf
      (flagByte (overflow12Flag s.I (s.getV x))))

/-- LD F, Vx Fx29 (43_index_memory.md R164). -/
def execLdF (x : RegId) (s : State) : Result := ldFWith fontDigitMask x s

/-- LD B, Vx Fx33: three cells, hundreds first (43_index_memory.md R165). -/
def execLdB (x : RegId) (s : State) : Result :=
  if inBoundsRange s.I.toNat 3 then
    finish .ok (s.setMem (s.mem.writeBytes s.I.toNat (bcdDigits (s.getV x))))
  else raise .memoryBounds (.ldB x) s

/-- LD [I], Vx Fx55 (43_index_memory.md R166). -/
def execLdMemVx (x : RegId) (s : State) : Result := ldMemVxWith loadStoreIncrementI x s

/-- LD Vx, [I] Fx65 (43_index_memory.md R168). -/
def execLdVxMem (x : RegId) (s : State) : Result := ldVxMemWith loadStoreIncrementI x s

end Sys2Proof.Machine
end

