-- ==== Sys2Proof/Machine/InputTimers.lean ====
section
/-! DEFINITION. Keys and timers (spec/45_input_timers.md). -/
namespace Sys2Proof.Machine

/-- Ex9E with the sampled set of pressed keys (45_input_timers.md R190). -/
def skpWith (pressed : BitVec 16) (x : RegId) (s : State) : Result :=
  finish .ok (s.skipIf (keyPressed pressed (s.getV x)))

/-- ExA1 with the sampled set of pressed keys (45_input_timers.md R191). -/
def sknpWith (pressed : BitVec 16) (x : RegId) (s : State) : Result :=
  finish .ok (s.skipIf (!keyPressed pressed (s.getV x)))

/-- SKP Vx Ex9E: the set is a free value, sampled now (45_input_timers.md R190, log 1). -/
def execSkp (x : RegId) (s : State) : Result := skpWith (Config.pressedKeys s.draws) x s.draw

/-- SKNP Vx ExA1: the set is a free value, sampled now (45_input_timers.md R191, log 1). -/
def execSknp (x : RegId) (s : State) : Result := sknpWith (Config.pressedKeys s.draws) x s.draw

/-- LD Vx, DT Fx07 (45_input_timers.md R192). -/
def execLdVxDt (x : RegId) (s : State) : Result := finish .ok (s.setV x s.DT)

/-- LD Vx, K Fx0A: the step is suspended; KeyPress completes it (45_input_timers.md R193). -/
def execLdVxK (x : RegId) (s : State) : Result := finish .blocked (s.setRun (.keyWait x))

/-- LD DT, Vx Fx15 (45_input_timers.md R195). -/
def execLdDtVx (x : RegId) (s : State) : Result := finish .ok (s.setDT (s.getV x))

/-- LD ST, Vx Fx18 (45_input_timers.md R196). -/
def execLdStVx (x : RegId) (s : State) : Result := finish .ok (s.setST (s.getV x))

end Sys2Proof.Machine
end

