-- ==== Sys2Proof/Machine/Cycle.lean ====
section
/-! DEFINITION. The step cycle: fetch, advance, decode, execute, and the host's events
(spec/40_step_cycle.md R100-R113). -/
namespace Sys2Proof.Machine

/-- The two bytes at the program counter, the lowest address first (20_memory.md R52, R53). -/
def State.fetchBytes (s : State) : List Byte := [s.readByte s.pc.toNat, s.readByte (s.pc.toNat + 1)]

/-- The opcode at the program counter, big-endian (40_step_cycle.md R102). -/
def State.fetchOpcode (s : State) : Word := wordOfBytes (s.readByte s.pc.toNat) (s.readByte (s.pc.toNat + 1))

/-- pc <- f + 2, before dispatch (40_step_cycle.md R103). -/
def State.advance (s : State) : State := s.setPc (s.pc + 2)

/-- Decode and execute: a rejected word raises InvalidOpcode (40_step_cycle.md R104, R106). -/
def runFetched (s : State) : Result :=
  match decode s.fetchBytes with
  | .ok (i, _) => exec i s.advance
  | .error _ => takeFault .invalidOpcode s.fetchOpcode s.advance

/-- The event Step (40_step_cycle.md R106): the fault again in Faulted (R107), HALT when pc does not address two
cells (R101), else one instruction. It is not enabled in a key wait (R100, log 4). -/
def coreStep (s : State) : Result :=
  match s.run with
  | .faulted kind op f => finish (.fault kind op f) s
  | .keyWait _ => .fault (.eventNotEnabled .step)
  | .running => if inBoundsFetch s.pc then runFetched s else finish .halt s

/-- One host event delivered to the core (40_step_cycle.md R110). -/
def deliver (e : HostEvent) (s : State) : Result :=
  match e with
  | .step => coreStep s
  | .tick => .next (tick s)
  | .keyPress k => keyPress k s

/-- The event of a host's choice: `none` is a Tick, which every run status enables (60_exceptions.md R213);
`some k` is KeyPress(k) in a key wait (45_input_timers.md R194) and a Step in every other status (R100). -/
def chosenEvent (run : RunStatus) (choice : Option Nibble) : HostEvent :=
  match choice with
  | none => .tick
  | some k =>
    match run with
    | .keyWait _ => .keyPress k
    | .running => .step
    | .faulted _ _ _ => .step

/-- The event the host delivers now when it chooses `choice`, and the state with it taken off: the first of the
list while one is listed (log 2), and then the event chosen, one free value having been drawn (log 3). -/
def nextEventWith (choice : Option Nibble) (s : State) : HostEvent × State :=
  match s.events with
  | e :: es => (e, s.setEvents es)
  | [] => (chosenEvent s.run choice, s.draw)

/-- The event the host delivers now: with nothing listed a free choice among the enabled ones, so that every
interleaving of R113, endless ones too, is admitted (log 3). -/
def nextEvent (s : State) : HostEvent × State := nextEventWith (Config.hostChoice s.draws) s

/-- One move of the machine when the host chooses `choice`: the event delivered. -/
def hostMoveWith (choice : Option Nibble) (s : State) : Result :=
  deliver (nextEventWith choice s).1 (nextEventWith choice s).2

/-- One move of the machine: the next host event delivered. -/
def hostMove (s : State) : Result := hostMoveWith (Config.hostChoice s.draws) s

/-- The state in which the very next step fetches and runs the opcode `op`: its bytes stand at pc, the core is
Running, and the host's first event is a Step. A pc that addresses no two cells (R101) becomes PROGRAM_ORIGIN
(log 13). -/
def State.placeOpcode (s : State) (op : Word) : State :=
  let pc := if inBoundsFetch s.pc then s.pc else BitVec.ofNat 16 Config.programOrigin
  { s with
    mem := s.mem.writeBytes pc.toNat (bytesOfWord op), pc := pc, run := .running, events := .step :: s.events }

end Sys2Proof.Machine
end

