-- ==== Sys2Proof/Machine/Step.lean ====
section
/-! DEFINITION. The step function, one host event a step (spec/40_step_cycle.md), and the host's way to place an
instruction where the next step fetches it. -/
namespace Sys2Proof.Machine

def step (s : State) : Host.Outcome State Fault Refusal := hostMove s

/-- `s` with the instruction of an opcode-table row, numbered as the table numbers it, where `step` fetches. -/
def State.withFetchWord (s : State) (nbits w : Nat) : State := s.placeOpcode (tableOpcode nbits w)

end Sys2Proof.Machine
end

