-- ==== Sys2Proof/Machine/Boot.lean ====
section
/-! DEFINITION. The boot-time load and the launch of a session (spec/70_reset_and_hazards.md R231-R233). -/
namespace Sys2Proof.Machine

/-- `load(bytes, at_font_region)`: bytes copied to 0x000 or 0x200, nothing else changed; refused when they would
pass 0xFFF (70_reset_and_hazards.md R232, log 13). -/
def load (bytes : List Byte) (atFontRegion : Bool) (s : State) : Result :=
  let base := if atFontRegion then Config.fontOrigin else Config.programOrigin
  if inBoundsRange base bytes.length then .next (s.setMem (s.mem.writeBytes base bytes))
  else .refused .loadPastTop

/-- The boot sequence: reset, the font, the ROM, and then the host's events, those listed first and free ones after
them (70_reset_and_hazards.md R231, decision D23). -/
def launch (font rom : List Byte) (events : List HostEvent) : Result :=
  match load font true State.reset with
  | .next s =>
    match load rom false s with
    | .next t => .next (t.setEvents events)
    | .fault r => .fault r
    | .refused r => .refused r
  | .fault r => .fault r
  | .refused r => .refused r

end Sys2Proof.Machine
end

