-- ==== Sys2Proof/Safety.lean ====
section
/-! DEFINITION. What the statements speak of: frames, the ends of a run, and the invariants
(spec/10_state.md R35, spec/40_step_cycle.md R112). -/
namespace Sys2Proof.Machine

/-- Every general register outside `xs` keeps its value. -/
def KeepsRegs (xs : List RegId) (s t : State) : Prop := ∀ j : RegId, j ∉ xs → t.getV j = s.getV j

/-- Every byte of memory, at every address, keeps its value. -/
def KeepsMem (s t : State) : Prop := ∀ a : Nat, t.readByte a = s.readByte a

/-- Every pixel keeps its value. -/
def KeepsFb (s t : State) : Prop := ∀ (c : Fin 64) (r : Fin 32), t.pixel c r = s.pixel c r

/-- The call stack, the run status and the host's remaining events keep their values. -/
def KeepsControl (s t : State) : Prop := t.stack = s.stack ∧ t.run = s.run ∧ t.events = s.events

/-- The frame of an instruction that writes nothing but general registers in `xs`, pc and the status: every byte
of memory, I, both timers, the pixels, the stack, the run status and the events are as before. -/
def OnlyRegsAndPc (xs : List RegId) (s t : State) : Prop :=
  KeepsRegs xs s t ∧ KeepsMem s t ∧ KeepsFb s t ∧ KeepsControl s t ∧ t.I = s.I ∧ t.DT = s.DT ∧ t.ST = s.ST

/-- The general registers that an instruction writing nothing but registers, pc and the status names as its
destinations (10_state.md R23): none of a jump or a skip, VF beside Vx where it takes a flag. -/
def registerDestinations : Instr → Option (List RegId)
  | .jp _ | .jpV0 _ => some []
  | .seImm .. | .sneImm .. | .seReg .. | .sneReg .. | .skp _ | .sknp _ => some []
  | .ldImm x _ | .addImm x _ | .rnd x _ | .ldVxDt x => some [x]
  | .ldReg x _ | .orReg x _ | .andReg x _ | .xorReg x _ => some [x]
  | .addReg x _ | .sub x _ | .shr x _ | .subn x _ | .shl x _ => some [x, 0xF#4]
  | .sys _ | .cls | .ret | .call _ | .ldI _ | .drw .. | .ldVxK _ | .ldDtVx _ | .ldStVx _ => none
  | .addI _ | .ldF _ | .ldB _ | .ldMemVx _ | .ldVxMem _ => none

/-- The opcode of `i` has the bits `m` under `mask`, as a row of 30_encoding.md R74 says. -/
def EncodedAs (i : Instr) (mask m : Word) : Prop := encode i &&& mask = m

/-- The status an instruction that completes gives the Step (40_step_cycle.md R106, R108). -/
def completionStatus : Instr → Status
  | .cls | .drw .. => .redraw
  | .ldVxK _ => .blocked
  | .sys _ | .ret | .jp _ | .call _ | .seImm .. | .sneImm .. | .seReg .. | .sneReg .. | .jpV0 _ => .ok
  | .ldImm .. | .addImm .. | .ldReg .. | .orReg .. | .andReg .. | .xorReg .. | .addReg .. | .sub .. => .ok
  | .shr .. | .subn .. | .shl .. | .rnd .. | .ldI _ | .skp _ | .sknp _ | .ldVxDt _ | .ldDtVx _ => .ok
  | .ldStVx _ | .addI _ | .ldF _ | .ldB _ | .ldMemVx _ | .ldVxMem _ => .ok

/-- The sprite's bit over column c and row r for the anchor (xa, ya), false where the sprite does not reach: row
r - ya of the bytes, bit 7 - (c - xa) (44_display.md R181). -/
def spriteBit (bytes : List Byte) (xa ya : Byte) (c : Fin 64) (r : Fin 32) : Bool :=
  decide (xa.toNat ≤ c.val) && decide (c.val < xa.toNat + 8) && decide (ya.toNat ≤ r.val) &&
    (bytes.getD (r.val - ya.toNat) 0).getLsbD (7 - (c.val - xa.toNat))

/-- The run has ended normally: the next Step returns HALT (40_step_cycle.md R112). -/
def State.endedNormally (s : State) : Prop := s.run = .running ∧ 0xFFF ≤ s.pc.toNat

/-- The run has ended badly: the core is Faulted (40_step_cycle.md R112). -/
def State.endedBadly (s : State) : Prop := ∃ kind op f, s.run = .faulted kind op f

/-- A run: the states that one endless interleaving of the host's events leads through (40_step_cycle.md R113). -/
def IsRun (r : Nat → State) : Prop := ∀ n, step (r n) = .next (r (n + 1))

/-- The host keeps delivering Ticks, and Steps wherever no key wait disables them: the fairness that a claim of
termination must assume where a ROM waits for DT (70_reset_and_hazards.md R238). -/
def FairRun (r : Nat → State) : Prop :=
  (∀ n, ∃ m, n ≤ m ∧ (nextEvent (r m)).1 = .tick) ∧
    ∀ n, ∃ m, n ≤ m ∧ ((nextEvent (r m)).1 = .step ∨ ∃ x, (r m).run = .keyWait x)

/-- The fault the record names is the one that the recorded opcode can raise (60_exceptions.md R200). -/
def FaultKind.matchesOpcode (kind : FaultKind) (op : Word) : Prop :=
  match kind with
  | .invalidOpcode => (∃ nnn, decodeWord op = .ok (.sys nnn)) ∨ ∃ e, decodeWord op = .error e
  | .stackOverflow => ∃ nnn, decodeWord op = .ok (.call nnn)
  | .stackUnderflow => decodeWord op = .ok .ret
  | .memoryBounds =>
    (∃ x y n, decodeWord op = .ok (.drw x y n)) ∨
      ∃ x, decodeWord op = .ok (.ldB x) ∨ decodeWord op = .ok (.ldMemVx x) ∨ decodeWord op = .ok (.ldVxMem x)

/-- The invariant of 10_state.md R35, with memory in canonical form and every saved return address at most
0x1000. The widths of V, DT and ST are in their types. -/
structure State.Inv (s : State) : Prop where
  memory : s.mem.wf
  index : s.I.toNat ≤ 0xFFF
  depth : s.stack.length ≤ stackCapacity
  returns : ∀ w ∈ s.stack, w.toNat ≤ 0x1000
  counter : s.pc.toNat ≤ 0x10FE

/-- The fault record is exact (60_exceptions.md R201): pc is past the recorded address, the recorded opcode still
stands in memory there, and it can raise the recorded kind. -/
def State.FaultExact (s : State) : Prop :=
  ∀ kind op f, s.run = .faulted kind op f →
    s.pc = f + 2 ∧ f.toNat + 1 ≤ 0xFFF ∧
      wordOfBytes (s.readByte f.toNat) (s.readByte (f.toNat + 1)) = op ∧ kind.matchesOpcode op

end Sys2Proof.Machine
end

