-- ==== Sys2Proof/Certificates/Slice0/Obligations.lean ====
section
/-! DEFINITION. The statements for the provers. Each docstring names the rule of spec/ it formalises. In a
statement about `exec`, pc already holds f + 2, f being the fetch address (40_step_cycle.md R105). A record
update `{ s with ... }` on the right of an equation is the whole frame: every field it does not name, all of
memory included, is as in `s`. -/

open Sys2Proof Sys2Proof.Machine

/-- R36: the table of reset values. -/
def Obligations.ResetGivesStatedValues : Prop :=
  (∀ x : RegId, State.reset.getV x = 0x00#8) ∧ State.reset.I = 0x000#16 ∧ State.reset.DT = 0x00#8 ∧
    State.reset.ST = 0x00#8 ∧ State.reset.pc = 0x200#16 ∧ State.reset.stack = [] ∧
    (∀ c r, State.reset.pixel c r = false) ∧ (∀ a : Nat, a ≤ 0xFFF → State.reset.readByte a = 0x00#8) ∧
    State.reset.run = .running

/-- R103, R105, R106: a Step of a Running core whose two bytes at pc decode to `i` is `i` run with pc = f + 2. What
stands around it, the list that holds the host's events, is the model's own (log 2). -/
def Obligations.StepRunsTheDecodedInstruction : Prop :=
  ∀ (s : State) (es : List HostEvent) (i : Instr) (rest : List Byte),
    s.run = .running → s.events = .step :: es → s.pc.toNat + 1 ≤ 0xFFF →
    decode [s.readByte s.pc.toNat, s.readByte (s.pc.toNat + 1)] = .ok (i, rest) → i.wellFormed = true →
    step s = exec i { s with pc := s.pc + 2, events := es }

/-- R113, R213: with no event listed the step is the host's free choice (log 3), and whatever the choice is, its event
is enabled: a Tick in every run status, a Step outside a key wait, a KeyPress with any key in one. Each enabled event
is some choice, and is delivered as when it stands in the list (log 2). -/
def Obligations.UnlistedEventIsAnyEnabledOne : Prop :=
  ∀ s : State, s.events = [] →
    step s = hostMoveWith (Config.hostChoice s.draws) s ∧
    hostMoveWith none s = step { s with events := [.tick], draws := s.draws + 1 } ∧
    ((∀ x, s.run ≠ .keyWait x) → ∀ k : Nibble,
      hostMoveWith (some k) s = step { s with events := [.step], draws := s.draws + 1 }) ∧
    (∀ x, s.run = .keyWait x → ∀ k : Nibble,
      hostMoveWith (some k) s = step { s with events := [.keyPress k], draws := s.draws + 1 })

/-- R101: the fetch bounds check comes first; a halting Step changes no state and returns HALT. -/
def Obligations.FetchOutOfBoundsHalts : Prop :=
  ∀ (s : State) (es : List HostEvent), s.run = .running → s.events = .step :: es → 0xFFF ≤ s.pc.toNat →
    step s = .next { s with status := some .halt, events := es }

/-- R107: a Step in Faulted changes no state and returns the same FAULT. -/
def Obligations.FaultedStepRepeatsTheFault : Prop :=
  ∀ (s : State) (es : List HostEvent) (kind : FaultKind) (op f : Word),
    s.run = .faulted kind op f → s.events = .step :: es →
    step s = .next { s with status := some (.fault kind op f), events := es }

/-- R104: a fetched word that is INVALID or SYS raises InvalidOpcode(op, f); pc keeps f + 2 and nothing else is
written. -/
def Obligations.InvalidWordRaisesInvalidOpcode : Prop :=
  ∀ (s : State) (es : List HostEvent) (op : Word),
    s.run = .running → s.events = .step :: es → s.pc.toNat + 1 ≤ 0xFFF →
    op = s.readByte s.pc.toNat ++ s.readByte (s.pc.toNat + 1) →
    ((∃ e, decodeWord op = .error e) ∨ ∃ nnn, decodeWord op = .ok (.sys nnn)) →
    step s = .next { s with
      pc := s.pc + 2, run := .faulted .invalidOpcode op s.pc,
      status := some (.fault .invalidOpcode op s.pc), events := es }

/-- R74 and the vectors of 95_test_vectors.md 2.1: a word of each family, written out from its pattern. -/
def Obligations.SpecWordsDecode : Prop :=
  decodeWord 0x00E0#16 = .ok .cls ∧ decodeWord 0x00EE#16 = .ok .ret ∧ decodeWord 0x00E1#16 = .ok (.sys 0x0E1#12) ∧
    decodeWord 0x1ABC#16 = .ok (.jp 0xABC#12) ∧ decodeWord 0x2300#16 = .ok (.call 0x300#12) ∧
    decodeWord 0x3342#16 = .ok (.seImm 0x3#4 0x42#8) ∧ decodeWord 0x4341#16 = .ok (.sneImm 0x3#4 0x41#8) ∧
    decodeWord 0x5120#16 = .ok (.seReg 0x1#4 0x2#4) ∧ decodeWord 0x5121#16 = .error (.invalid 0x5#4 0x5121#16) ∧
    decodeWord 0x6A5B#16 = .ok (.ldImm 0xA#4 0x5B#8) ∧ decodeWord 0x7001#16 = .ok (.addImm 0x0#4 0x01#8) ∧
    decodeWord 0x80F4#16 = .ok (.addReg 0x0#4 0xF#4) ∧ decodeWord 0x800E#16 = .ok (.shl 0x0#4 0x0#4) ∧
    decodeWord 0x8008#16 = .error (.invalid 0x8#4 0x8008#16) ∧ decodeWord 0x9120#16 = .ok (.sneReg 0x1#4 0x2#4) ∧
    decodeWord 0xAFFF#16 = .ok (.ldI 0xFFF#12) ∧ decodeWord 0xB300#16 = .ok (.jpV0 0x300#12) ∧
    decodeWord 0xC30F#16 = .ok (.rnd 0x3#4 0x0F#8) ∧ decodeWord 0xDAB5#16 = .ok (.drw 0xA#4 0xB#4 0x5#4) ∧
    decodeWord 0xE5A1#16 = .ok (.sknp 0x5#4) ∧ decodeWord 0xF265#16 = .ok (.ldVxMem 0x2#4) ∧
    decodeWord 0xF000#16 = .error (.invalid 0xF#4 0xF000#16)

/-- R71, R73, R74: the bytes of a well-formed instruction's opcode decode to it. -/
def Obligations.DecodeOfEncode : Prop :=
  ∀ i : Instr, i.wellFormed = true → decode (bytesOfWord (encode i)) = .ok (i, [])

/-- R74: a word has at most one reading; the decoder loses no bit and answers well-formed instructions only. -/
def Obligations.EncodeOfDecode : Prop :=
  ∀ (w : Word) (i : Instr), decodeWord w = .ok i → encode i = w ∧ i.wellFormed = true

/-- R75: the words the decoder rejects are exactly the INVALID ones of the table, by the arithmetic of the word. -/
def Obligations.RejectedWordsAreTheInvalidOnes : Prop :=
  ∀ w : Word, (∃ e, decodeWord w = .error e) ↔
    (w.toNat / 0x1000 = 0x5 ∧ w.toNat % 0x10 ≠ 0) ∨
    (w.toNat / 0x1000 = 0x8 ∧ w.toNat % 0x10 ∈ [0x8, 0x9, 0xA, 0xB, 0xC, 0xD, 0xF]) ∨
    (w.toNat / 0x1000 = 0x9 ∧ w.toNat % 0x10 ≠ 0) ∨
    (w.toNat / 0x1000 = 0xE ∧ w.toNat % 0x100 ∉ [0x9E, 0xA1]) ∨
    (w.toNat / 0x1000 = 0xF ∧
      w.toNat % 0x100 ∉ [0x07, 0x0A, 0x15, 0x18, 0x1E, 0x29, 0x33, 0x55, 0x65])

/-- R71: the six fields, by the arithmetic of the word. -/
def Obligations.FieldsAreTheBitsOfTheWord : Prop :=
  ∀ op : Word, (fieldTop op).toNat = op.toNat / 0x1000 ∧ (fieldX op).toNat = op.toNat / 0x100 % 0x10 ∧
    (fieldY op).toNat = op.toNat / 0x10 % 0x10 ∧ (fieldN op).toNat = op.toNat % 0x10 ∧
    (fieldNN op).toNat = op.toNat % 0x100 ∧ (fieldNNN op).toNat = op.toNat % 0x1000

/-- R121: SYS always raises InvalidOpcode with its own word. -/
def Obligations.SysRaisesInvalidOpcode : Prop :=
  ∀ (nnn : Addr) (f : Word) (s : State), nnn ≠ 0x0E0#12 → nnn ≠ 0x0EE#12 → s.pc = f + 2 →
    EncodedAs (.sys nnn) 0xF000#16 0x0000#16 ∧
      exec (.sys nnn) s = .next { s with
        run := .faulted .invalidOpcode (nnn.setWidth 16) f,
        status := some (.fault .invalidOpcode (nnn.setWidth 16) f) }

/-- R122: RET pops the top into pc, or raises StackUnderflow on an empty stack. -/
def Obligations.RetPopsOrUnderflows : Prop :=
  encode .ret = 0x00EE#16 ∧
    (∀ (s : State) (l : List Word) (w : Word), s.stack = l ++ [w] →
      exec .ret s = .next { s with stack := l, pc := w, status := some .ok }) ∧
    (∀ (s : State) (f : Word), s.stack = [] → s.pc = f + 2 →
      exec .ret s = .next { s with
        run := .faulted .stackUnderflow 0x00EE#16 f, status := some (.fault .stackUnderflow 0x00EE#16 f) })

/-- R123: JP writes nnn to pc. -/
def Obligations.JpSetsPc : Prop :=
  ∀ (nnn : Addr) (s : State), EncodedAs (.jp nnn) 0xF000#16 0x1000#16 ∧
    exec (.jp nnn) s = .next { s with pc := nnn.setWidth 16, status := some .ok }

/-- R124, with STACK_CAPACITY 16 (R8): CALL pushes the advanced pc, or raises StackOverflow on a full stack. -/
def Obligations.CallPushesOrOverflows : Prop :=
  ∀ (nnn : Addr) (s : State), EncodedAs (.call nnn) 0xF000#16 0x2000#16 ∧
    (s.stack.length < 16 →
      exec (.call nnn) s =
        .next { s with stack := s.stack ++ [s.pc], pc := nnn.setWidth 16, status := some .ok }) ∧
    (∀ f : Word, s.stack.length = 16 → s.pc = f + 2 →
      exec (.call nnn) s = .next { s with
        run := .faulted .stackOverflow (BitVec.ofNat 16 (0x2000 + nnn.toNat)) f,
        status := some (.fault .stackOverflow (BitVec.ofNat 16 (0x2000 + nnn.toNat)) f) })

/-- R125, R126: SE and SNE with a byte. -/
def Obligations.SkipsOnAByte : Prop :=
  ∀ (x : RegId) (nn : Byte) (s : State),
    EncodedAs (.seImm x nn) 0xF000#16 0x3000#16 ∧ EncodedAs (.sneImm x nn) 0xF000#16 0x4000#16 ∧
    exec (.seImm x nn) s =
      .next { s with pc := if s.getV x = nn then s.pc + 2 else s.pc, status := some .ok } ∧
    exec (.sneImm x nn) s =
      .next { s with pc := if s.getV x = nn then s.pc else s.pc + 2, status := some .ok }

/-- R127, R128: SE and SNE with a register; a word of their families with a low nibble other than 0 raises
InvalidOpcode when a Step fetches it. -/
def Obligations.SkipsOnARegister : Prop :=
  (∀ (x y : RegId) (s : State),
    EncodedAs (.seReg x y) 0xF00F#16 0x5000#16 ∧ EncodedAs (.sneReg x y) 0xF00F#16 0x9000#16 ∧
    exec (.seReg x y) s =
      .next { s with pc := if s.getV x = s.getV y then s.pc + 2 else s.pc, status := some .ok } ∧
    exec (.sneReg x y) s =
      .next { s with pc := if s.getV x = s.getV y then s.pc else s.pc + 2, status := some .ok }) ∧
  (∀ (s : State) (es : List HostEvent) (op : Word),
    s.run = .running → s.events = .step :: es → s.pc.toNat + 1 ≤ 0xFFF →
    op = s.readByte s.pc.toNat ++ s.readByte (s.pc.toNat + 1) →
    op.toNat / 0x1000 = 0x5 ∨ op.toNat / 0x1000 = 0x9 → op.toNat % 0x10 ≠ 0 →
    step s = .next { s with
      pc := s.pc + 2, run := .faulted .invalidOpcode op s.pc,
      status := some (.fault .invalidOpcode op s.pc), events := es })

/-- R129: Bnnn writes the exact sum V0 + nnn to pc, with no mask and no fault. -/
def Obligations.JpV0SetsPcToTheExactSum : Prop :=
  ∀ (nnn : Addr) (s : State), EncodedAs (.jpV0 nnn) 0xF000#16 0xB000#16 ∧
    ∃ t, exec (.jpV0 nnn) s = .next t ∧ t.pc.toNat = (s.getV 0x0#4).toNat + nnn.toNat ∧
      t = { s with pc := t.pc, status := some .ok }

/-- R141, R143: LD Vx with a byte and with a register; no flag. -/
def Obligations.LoadsARegister : Prop :=
  ∀ (x y : RegId) (nn : Byte) (s : State),
    EncodedAs (.ldImm x nn) 0xF000#16 0x6000#16 ∧ EncodedAs (.ldReg x y) 0xF00F#16 0x8000#16 ∧
    (∃ t, exec (.ldImm x nn) s = .next t ∧ t.getV x = nn ∧ KeepsRegs [x] s t ∧
      t = { s with V := t.V, status := some .ok }) ∧
    (∃ t, exec (.ldReg x y) s = .next t ∧ t.getV x = s.getV y ∧ KeepsRegs [x] s t ∧
      t = { s with V := t.V, status := some .ok })

/-- R142: ADD Vx, byte wraps to 8 bits and writes no flag. -/
def Obligations.AddsAByteWithoutFlag : Prop :=
  ∀ (x : RegId) (nn : Byte) (s : State), EncodedAs (.addImm x nn) 0xF000#16 0x7000#16 ∧
    ∃ t, exec (.addImm x nn) s = .next t ∧ (t.getV x).toNat = ((s.getV x).toNat + nn.toNat) % 256 ∧
      KeepsRegs [x] s t ∧ t = { s with V := t.V, status := some .ok }

/-- R144, R145, R146: OR, AND, XOR bit by bit; no flag, VF is not reset. -/
def Obligations.LogicWithoutFlag : Prop :=
  ∀ (x y : RegId) (s : State),
    EncodedAs (.orReg x y) 0xF00F#16 0x8001#16 ∧ EncodedAs (.andReg x y) 0xF00F#16 0x8002#16 ∧
    EncodedAs (.xorReg x y) 0xF00F#16 0x8003#16 ∧
    (∃ t, exec (.orReg x y) s = .next t ∧
      (∀ k, (t.getV x).getLsbD k = ((s.getV x).getLsbD k || (s.getV y).getLsbD k)) ∧
      KeepsRegs [x] s t ∧ t = { s with V := t.V, status := some .ok }) ∧
    (∃ t, exec (.andReg x y) s = .next t ∧
      (∀ k, (t.getV x).getLsbD k = ((s.getV x).getLsbD k && (s.getV y).getLsbD k)) ∧
      KeepsRegs [x] s t ∧ t = { s with V := t.V, status := some .ok }) ∧
    (∃ t, exec (.xorReg x y) s = .next t ∧
      (∀ k, (t.getV x).getLsbD k = ((s.getV x).getLsbD k ^^ (s.getV y).getLsbD k)) ∧
      KeepsRegs [x] s t ∧ t = { s with V := t.V, status := some .ok })

/-- R147 under FLAG_LAST, which exec uses (R8), and under RESULT_LAST. -/
def Obligations.AddsRegistersWithCarry : Prop :=
  ∀ (x y : RegId) (s : State), EncodedAs (.addReg x y) 0xF00F#16 0x8004#16 ∧
    (∃ t, exec (.addReg x y) s = .next t ∧
      (x ≠ 0xF#4 → (t.getV x).toNat = ((s.getV x).toNat + (s.getV y).toNat) % 256) ∧
      t.getV 0xF#4 = (if (s.getV x).toNat + (s.getV y).toNat > 255 then 1 else 0) ∧
      KeepsRegs [x, 0xF#4] s t ∧ t = { s with V := t.V, status := some .ok }) ∧
    (∃ t, addRegWith .resultLast x y s = .next t ∧
      (t.getV x).toNat = ((s.getV x).toNat + (s.getV y).toNat) % 256 ∧
      (x ≠ 0xF#4 → t.getV 0xF#4 = if (s.getV x).toNat + (s.getV y).toNat > 255 then 1 else 0) ∧
      KeepsRegs [x, 0xF#4] s t ∧ t = { s with V := t.V, status := some .ok })

/-- R148 (SUB: a = Vx, b = Vy) and R150 (SUBN: a = Vy, b = Vx) under FLAG_LAST, which exec uses (R8), and under
RESULT_LAST. -/
def Obligations.SubtractsWithNotBorrow : Prop :=
  ∀ (x y : RegId) (s : State),
    EncodedAs (.sub x y) 0xF00F#16 0x8005#16 ∧ EncodedAs (.subn x y) 0xF00F#16 0x8007#16 ∧
    (∃ t, exec (.sub x y) s = .next t ∧
      (x ≠ 0xF#4 → (t.getV x).toNat = ((s.getV x).toNat + 256 - (s.getV y).toNat) % 256) ∧
      t.getV 0xF#4 = (if (s.getV x).toNat ≥ (s.getV y).toNat then 1 else 0) ∧
      KeepsRegs [x, 0xF#4] s t ∧ t = { s with V := t.V, status := some .ok }) ∧
    (∃ t, exec (.subn x y) s = .next t ∧
      (x ≠ 0xF#4 → (t.getV x).toNat = ((s.getV y).toNat + 256 - (s.getV x).toNat) % 256) ∧
      t.getV 0xF#4 = (if (s.getV y).toNat ≥ (s.getV x).toNat then 1 else 0) ∧
      KeepsRegs [x, 0xF#4] s t ∧ t = { s with V := t.V, status := some .ok }) ∧
    (∀ a b : Byte, ∃ t, subtractWith .resultLast x a b s = .next t ∧
      (t.getV x).toNat = (a.toNat + 256 - b.toNat) % 256 ∧
      (x ≠ 0xF#4 → t.getV 0xF#4 = if a.toNat ≥ b.toNat then 1 else 0) ∧
      KeepsRegs [x, 0xF#4] s t ∧ t = { s with V := t.V, status := some .ok })

/-- R149, R151: exec shifts Vx and writes the flag last (R8); and under every SHIFT_SOURCE and VF_WRITE_ORDER, with
`v` the value shifted, the result and the bit shifted out. -/
def Obligations.ShiftsByOne : Prop :=
  ∀ (x y : RegId) (s : State),
    EncodedAs (.shr x y) 0xF00F#16 0x8006#16 ∧ EncodedAs (.shl x y) 0xF00F#16 0x800E#16 ∧
    exec (.shr x y) s = shrWith .vx .flagLast x y s ∧ exec (.shl x y) s = shlWith .vx .flagLast x y s ∧
    ∀ (src : Config.ShiftSource) (order : Config.VfWriteOrder) (v : Nat),
      v = (if src = .vx then s.getV x else s.getV y).toNat →
      (∃ t, shrWith src order x y s = .next t ∧
        (x ≠ 0xF#4 ∨ order = .resultLast → (t.getV x).toNat = v / 2) ∧
        (x ≠ 0xF#4 ∨ order = .flagLast → (t.getV 0xF#4).toNat = v % 2) ∧
        KeepsRegs [x, 0xF#4] s t ∧ t = { s with V := t.V, status := some .ok }) ∧
      (∃ t, shlWith src order x y s = .next t ∧
        (x ≠ 0xF#4 ∨ order = .resultLast → (t.getV x).toNat = v * 2 % 256) ∧
        (x ≠ 0xF#4 ∨ order = .flagLast → (t.getV 0xF#4).toNat = v / 128) ∧
        KeepsRegs [x, 0xF#4] s t ∧ t = { s with V := t.V, status := some .ok })

/-- R152: the drawn byte AND nn, whatever byte is drawn; exec draws one free value (log 1). -/
def Obligations.RandomByteIsMasked : Prop :=
  ∀ (x : RegId) (nn : Byte) (s : State), EncodedAs (.rnd x nn) 0xF000#16 0xC000#16 ∧
    (∃ t, exec (.rnd x nn) s = .next t ∧ t.getV x = Config.rand s.draws &&& nn ∧
      (∀ k, nn.getLsbD k = false → (t.getV x).getLsbD k = false) ∧ KeepsRegs [x] s t ∧
      t = { s with V := t.V, status := some .ok, draws := s.draws + 1 }) ∧
    (∀ drawn : Byte, ∃ t, rndWith drawn x nn s = .next t ∧ t.getV x = drawn &&& nn ∧ KeepsRegs [x] s t ∧
      t = { s with V := t.V, status := some .ok })

/-- R25: with x = F the last of the two writes wins; else both are seen. -/
def Obligations.LastWriteToVFWins : Prop :=
  ∀ (r : Byte) (flag : Bool) (s : State),
    (writeResultAndFlag .flagLast 0xF#4 r flag s).getV 0xF#4 = (if flag then 1 else 0) ∧
    (writeResultAndFlag .resultLast 0xF#4 r flag s).getV 0xF#4 = r ∧
    (∀ (order : Config.VfWriteOrder) (x : RegId), x ≠ 0xF#4 →
      (writeResultAndFlag order x r flag s).getV x = r ∧
      (writeResultAndFlag order x r flag s).getV 0xF#4 = if flag then 1 else 0)

/-- R161: I <- nnn. -/
def Obligations.LoadsTheAddressRegister : Prop :=
  ∀ (nnn : Addr) (s : State), EncodedAs (.ldI nnn) 0xF000#16 0xA000#16 ∧
    exec (.ldI nnn) s = .next { s with I := nnn.setWidth 16, status := some .ok }

/-- R163: I + Vx cut to 12 bits, VF the overflow past 0xFFF, the old VF the addend when x = F. -/
def Obligations.AddsToTheAddressRegister : Prop :=
  ∀ (x : RegId) (s : State), EncodedAs (.addI x) 0xF0FF#16 0xF01E#16 ∧
    ∃ t, exec (.addI x) s = .next t ∧ t.I.toNat = (s.I.toNat + (s.getV x).toNat) % 0x1000 ∧
      t.getV 0xF#4 = (if s.I.toNat + (s.getV x).toNat > 0xFFF then 1 else 0) ∧
      KeepsRegs [0xF#4] s t ∧ t = { s with I := t.I, V := t.V, status := some .ok }

/-- R164 under FONT_DIGIT_MASK = NONE, which exec uses (R8), and under LOW_NIBBLE. -/
def Obligations.FontAddressIsFiveTimesTheDigit : Prop :=
  ∀ (x : RegId) (s : State), EncodedAs (.ldF x) 0xF0FF#16 0xF029#16 ∧
    (∃ t, exec (.ldF x) s = .next t ∧ t.I.toNat = 5 * (s.getV x).toNat ∧
      t = { s with I := t.I, status := some .ok }) ∧
    (∃ t, ldFWith .lowNibble x s = .next t ∧ t.I.toNat = 5 * ((s.getV x).toNat % 16) ∧
      t = { s with I := t.I, status := some .ok })

/-- R165: three decimal digits at I, I+1, I+2, no other byte; MemoryBounds before any store when I+2 passes 0xFFF. -/
def Obligations.StoresDecimalDigits : Prop :=
  ∀ (x : RegId) (s : State), EncodedAs (.ldB x) 0xF0FF#16 0xF033#16 ∧
    (s.I.toNat + 2 ≤ 0xFFF →
      ∃ t, exec (.ldB x) s = .next t ∧ (t.readByte s.I.toNat).toNat = (s.getV x).toNat / 100 ∧
        (t.readByte (s.I.toNat + 1)).toNat = (s.getV x).toNat / 10 % 10 ∧
        (t.readByte (s.I.toNat + 2)).toNat = (s.getV x).toNat % 10 ∧
        (∀ a, a < s.I.toNat ∨ s.I.toNat + 2 < a → t.readByte a = s.readByte a) ∧
        t = { s with mem := t.mem, status := some .ok }) ∧
    (∀ f : Word, 0xFFF < s.I.toNat + 2 → s.pc = f + 2 →
      exec (.ldB x) s = .next { s with
        run := .faulted .memoryBounds (BitVec.ofNat 16 (0xF033 + x.toNat * 0x100)) f,
        status := some (.fault .memoryBounds (BitVec.ofNat 16 (0xF033 + x.toNat * 0x100)) f) })

/-- R166, R167: V0..Vx at I..I+x, no other byte; I kept by exec (R8), or advanced under LOADSTORE_INCREMENT_I;
MemoryBounds before any store when I+x passes 0xFFF. -/
def Obligations.StoresRegisters : Prop :=
  ∀ (x : RegId) (s : State), EncodedAs (.ldMemVx x) 0xF0FF#16 0xF055#16 ∧
    (s.I.toNat + x.toNat ≤ 0xFFF →
      (∃ t, exec (.ldMemVx x) s = .next t ∧
        (∀ k : RegId, k.toNat ≤ x.toNat → t.readByte (s.I.toNat + k.toNat) = s.getV k) ∧
        (∀ a, a < s.I.toNat ∨ s.I.toNat + x.toNat < a → t.readByte a = s.readByte a) ∧
        t = { s with mem := t.mem, status := some .ok }) ∧
      (∃ t, ldMemVxWith true x s = .next t ∧ t.I.toNat = (s.I.toNat + x.toNat + 1) % 0x1000 ∧
        (∀ k : RegId, k.toNat ≤ x.toNat → t.readByte (s.I.toNat + k.toNat) = s.getV k) ∧
        (∀ a, a < s.I.toNat ∨ s.I.toNat + x.toNat < a → t.readByte a = s.readByte a) ∧
        t = { s with mem := t.mem, I := t.I, status := some .ok })) ∧
    (∀ f : Word, 0xFFF < s.I.toNat + x.toNat → s.pc = f + 2 →
      exec (.ldMemVx x) s = .next { s with
        run := .faulted .memoryBounds (BitVec.ofNat 16 (0xF055 + x.toNat * 0x100)) f,
        status := some (.fault .memoryBounds (BitVec.ofNat 16 (0xF055 + x.toNat * 0x100)) f) })

/-- R168, R167: V0..Vx from I..I+x, the registers above x kept; I kept by exec (R8), or advanced under
LOADSTORE_INCREMENT_I; MemoryBounds before any load when I+x passes 0xFFF. -/
def Obligations.LoadsRegisters : Prop :=
  ∀ (x : RegId) (s : State), EncodedAs (.ldVxMem x) 0xF0FF#16 0xF065#16 ∧
    (s.I.toNat + x.toNat ≤ 0xFFF →
      (∃ t, exec (.ldVxMem x) s = .next t ∧
        (∀ k : RegId, t.getV k = if k.toNat ≤ x.toNat then s.readByte (s.I.toNat + k.toNat) else s.getV k) ∧
        t = { s with V := t.V, status := some .ok }) ∧
      (∃ t, ldVxMemWith true x s = .next t ∧ t.I.toNat = (s.I.toNat + x.toNat + 1) % 0x1000 ∧
        (∀ k : RegId, t.getV k = if k.toNat ≤ x.toNat then s.readByte (s.I.toNat + k.toNat) else s.getV k) ∧
        t = { s with V := t.V, I := t.I, status := some .ok })) ∧
    (∀ f : Word, 0xFFF < s.I.toNat + x.toNat → s.pc = f + 2 →
      exec (.ldVxMem x) s = .next { s with
        run := .faulted .memoryBounds (BitVec.ofNat 16 (0xF065 + x.toNat * 0x100)) f,
        status := some (.fault .memoryBounds (BitVec.ofNat 16 (0xF065 + x.toNat * 0x100)) f) })

/-- R185: every pixel false, REDRAW, nothing else (VF included). -/
def Obligations.ClearsTheDisplay : Prop :=
  encode .cls = 0x00E0#16 ∧
    ∀ s : State, ∃ t, exec .cls s = .next t ∧ (∀ c r, t.pixel c r = false) ∧
      t = { s with fb := t.fb, status := some .redraw }

/-- R186, R181, R182: every pixel XORed with the sprite's bit over it, VF the collision, REDRAW; MemoryBounds before
any pixel when the sprite passes 0xFFF. -/
def Obligations.DrawsTheSprite : Prop :=
  ∀ (x y : RegId) (n : Nibble) (s : State) (bytes : List Byte),
    bytes = (List.range n.toNat).map (fun k => s.readByte (s.I.toNat + k)) →
    EncodedAs (.drw x y n) 0xF000#16 0xD000#16 ∧
    (n = 0 ∨ s.I.toNat + n.toNat - 1 ≤ 0xFFF →
      ∃ t, exec (.drw x y n) s = .next t ∧
        (∀ c r, t.pixel c r = (s.pixel c r ^^ spriteBit bytes (s.getV x) (s.getV y) c r)) ∧
        ((∃ c r, spriteBit bytes (s.getV x) (s.getV y) c r = true ∧ s.pixel c r = true) →
          t.getV 0xF#4 = 1) ∧
        (¬ (∃ c r, spriteBit bytes (s.getV x) (s.getV y) c r = true ∧ s.pixel c r = true) →
          t.getV 0xF#4 = 0) ∧
        KeepsRegs [0xF#4] s t ∧ t = { s with fb := t.fb, V := t.V, status := some .redraw }) ∧
    (∀ f : Word, n ≠ 0 → 0xFFF < s.I.toNat + n.toNat - 1 → s.pc = f + 2 →
      exec (.drw x y n) s = .next { s with
        run := .faulted .memoryBounds (BitVec.ofNat 16 (0xD000 + x.toNat * 0x100 + y.toNat * 0x10 + n.toNat)) f,
        status := some (.fault .memoryBounds
          (BitVec.ofNat 16 (0xD000 + x.toNat * 0x100 + y.toNat * 0x10 + n.toNat)) f) })

/-- R183's involution, with R181 and R182 for the flag: the same draw twice restores every pixel, and the second draw
collides exactly where a 1 bit of the sprite stands over a pixel that was clear at the start; where no 1 bit stands
over a set pixel at the start that is R183's own sentence on the second flag, any on-screen 1 bit (log 16). x and y are not F, for there the first draw overwrites the
anchor. -/
def Obligations.DrawingTwiceRestoresThePixels : Prop :=
  ∀ (x y : RegId) (n : Nibble) (s : State), x ≠ 0xF#4 → y ≠ 0xF#4 →
    (n = 0 ∨ s.I.toNat + n.toNat - 1 ≤ 0xFFF) →
    ∃ t u, exec (.drw x y n) s = .next t ∧ exec (.drw x y n) t = .next u ∧ KeepsFb s u ∧
      (u.getV 0xF#4 = 1 ↔
        ∃ c r, spriteBit ((List.range n.toNat).map (fun k => s.readByte (s.I.toNat + k)))
          (s.getV x) (s.getV y) c r = true ∧ s.pixel c r = false) ∧
      ((∀ c r, spriteBit ((List.range n.toNat).map (fun k => s.readByte (s.I.toNat + k)))
          (s.getV x) (s.getV y) c r = true → s.pixel c r = false) →
        (u.getV 0xF#4 = 1 ↔
          ∃ c r, spriteBit ((List.range n.toNat).map (fun k => s.readByte (s.I.toNat + k)))
            (s.getV x) (s.getV y) c r = true))

/-- R186 (corner cases), R181: an anchor off the grid is not reduced modulo it: nothing is drawn and VF = 0. -/
def Obligations.AnchorOffTheGridDrawsNothing : Prop :=
  ∀ (x y : RegId) (n : Nibble) (s : State), (n = 0 ∨ s.I.toNat + n.toNat - 1 ≤ 0xFFF) →
    64 ≤ (s.getV x).toNat ∨ 32 ≤ (s.getV y).toNat →
    ∃ t, exec (.drw x y n) s = .next t ∧ KeepsFb s t ∧ t.getV 0xF#4 = 0 ∧ t.status = some .redraw

/-- R190, R191: the skip on a pressed key and on one not pressed, for every set the host can hold; an id above 0xF is
in no set. exec samples one free value (log 1). -/
def Obligations.SkipsOnAKey : Prop :=
  ∀ (x : RegId) (s : State),
    EncodedAs (.skp x) 0xF0FF#16 0xE09E#16 ∧ EncodedAs (.sknp x) 0xF0FF#16 0xE0A1#16 ∧
    exec (.skp x) s = skpWith (Config.pressedKeys s.draws) x { s with draws := s.draws + 1 } ∧
    exec (.sknp x) s = sknpWith (Config.pressedKeys s.draws) x { s with draws := s.draws + 1 } ∧
    ∀ (pressed : BitVec 16) (u : State),
      skpWith pressed x u = .next { u with
        pc := if (u.getV x).toNat ≤ 0xF ∧ pressed.getLsbD (u.getV x).toNat = true then u.pc + 2 else u.pc,
        status := some .ok } ∧
      sknpWith pressed x u = .next { u with
        pc := if (u.getV x).toNat ≤ 0xF ∧ pressed.getLsbD (u.getV x).toNat = true then u.pc else u.pc + 2,
        status := some .ok }

/-- R192: Vx <- DT; DT is not changed. -/
def Obligations.ReadsTheDelayTimer : Prop :=
  ∀ (x : RegId) (s : State), EncodedAs (.ldVxDt x) 0xF0FF#16 0xF007#16 ∧
    ∃ t, exec (.ldVxDt x) s = .next t ∧ t.getV x = s.DT ∧ KeepsRegs [x] s t ∧
      t = { s with V := t.V, status := some .ok }

/-- R193: the core waits for a key with pc at f + 2; the Step returns BLOCKED. -/
def Obligations.KeyWaitSuspends : Prop :=
  ∀ (x : RegId) (s : State), EncodedAs (.ldVxK x) 0xF0FF#16 0xF00A#16 ∧
    exec (.ldVxK x) s = .next { s with run := .keyWait x, status := some .blocked }

/-- R194: KeyPress(k) in a key wait writes k to Vx and makes the core Running, and is enabled nowhere else. The event
is the first of `events` (log 2). -/
def Obligations.KeyPressEndsTheWait : Prop :=
  ∀ (s : State) (k : Nibble) (es : List HostEvent), s.events = .keyPress k :: es →
    (∀ x, s.run = .keyWait x →
      ∃ t, step s = .next t ∧ (t.getV x).toNat = k.toNat ∧ KeepsRegs [x] s t ∧
        t = { s with V := t.V, run := .running, status := some .ok, events := es }) ∧
    ((∀ x, s.run ≠ .keyWait x) → ∀ t, step s ≠ .next t)

/-- R195, R196: DT and ST from Vx; sound_on follows ST at once. -/
def Obligations.SetsTheTimers : Prop :=
  ∀ (x : RegId) (s : State),
    EncodedAs (.ldDtVx x) 0xF0FF#16 0xF015#16 ∧ EncodedAs (.ldStVx x) 0xF0FF#16 0xF018#16 ∧
    exec (.ldDtVx x) s = .next { s with DT := s.getV x, status := some .ok } ∧
    ∃ t, exec (.ldStVx x) s = .next t ∧ t = { s with ST := s.getV x, status := some .ok } ∧
      (t.soundOn = true ↔ s.getV x ≠ 0)

/-- R212: Tick decrements both timers, each floored at zero, touches nothing else and cannot fail, whatever the run
status (R213). The event is the first of `events` (log 2). -/
def Obligations.TickDecrementsBothTimers : Prop :=
  ∀ (s : State) (es : List HostEvent), s.events = .tick :: es →
    ∃ t, step s = .next t ∧ t.DT.toNat = s.DT.toNat - 1 ∧ t.ST.toNat = s.ST.toNat - 1 ∧
      t = { s with DT := t.DT, ST := t.ST, events := es }

/-- R220: the key wait is entered by Fx0A alone, left by a KeyPress alone, and all state but the timers survives it.
The events and draws are the model's own (logs 1 to 3). -/
def Obligations.KeyWaitIsEnteredAndLeftAsStated : Prop :=
  (∀ (s t : State) (x : RegId), s.run = .keyWait x → step s = .next t →
    t = { s with DT := t.DT, ST := t.ST, draws := t.draws, events := t.events } ∨
    (∃ k : Nibble, t.getV x = k.setWidth 8 ∧ KeepsRegs [x] s t ∧
      t = { s with V := t.V, run := .running, status := some .ok, draws := t.draws, events := t.events })) ∧
  (∀ (s t : State) (x : RegId), (∀ y, s.run ≠ .keyWait y) → step s = .next t → t.run = .keyWait x →
    s.run = .running ∧ decodeWord (s.readByte s.pc.toNat ++ s.readByte (s.pc.toNat + 1)) = .ok (.ldVxK x))

/-- R206, R107, R213: no step leaves Faulted; only Ticks still change the timers. -/
def Obligations.FaultedIsAbsorbing : Prop :=
  ∀ (s t : State) (kind : FaultKind) (op f : Word), s.run = .faulted kind op f → step s = .next t →
    t = { s with DT := t.DT, ST := t.ST, status := t.status, draws := t.draws, events := t.events } ∧
      (t.status = s.status ∨ t.status = some (.fault kind op f))

/-- R35 and R201 at reset: both invariants hold there. -/
def Obligations.ResetMeetsTheInvariants : Prop := State.reset.Inv ∧ State.reset.FaultExact

/-- R35: every step keeps memory canonical and inside 0x000..0xFFF, I in 0..0xFFF, the stack within its capacity and
pc at most 0x10FE. -/
def Obligations.StepKeepsInvariants : Prop := ∀ s t : State, s.Inv → step s = .next t → t.Inv

/-- R201, R200: after every step a fault record still names the word in memory it was fetched from, the address two
below pc, and a kind that this word can raise. -/
def Obligations.StepKeepsTheFaultRecordExact : Prop :=
  ∀ s t : State, s.FaultExact → step s = .next t → t.FaultExact

/-- R201: an instruction that raises a fault writes nothing but the record and the status. -/
def Obligations.FaultsArePrecise : Prop :=
  ∀ (i : Instr) (s t : State) (kind : FaultKind) (op f : Word),
    s.run = .running → exec i s = .next t → t.run = .faulted kind op f →
    op = encode i ∧ f = s.pc - 2 ∧
      t = { s with run := .faulted kind op f, status := some (.fault kind op f) }

/-- R187: a step that changes a pixel ran CLS or DRW. -/
def Obligations.PixelsChangeOnlyByClsAndDrw : Prop :=
  ∀ (s t : State) (c : Fin 64) (r : Fin 32), step s = .next t → t.pixel c r ≠ s.pixel c r →
    s.run = .running ∧ ∃ i, decodeWord (s.readByte s.pc.toNat ++ s.readByte (s.pc.toNat + 1)) = .ok i ∧
      (i = .cls ∨ ∃ x y n, i = .drw x y n)

/-- R187: pixels reach the rest of the state only as the collision flag of DRW: two states that differ in pixels alone
stay so under every other instruction, and under DRW differ at most in pixels and VF. -/
def Obligations.PixelsAreSeenOnlyAsCollision : Prop :=
  ∀ (i : Instr) (s t : State) (g : Framebuffer), exec i s = .next t →
    ∃ u, exec i { s with fb := g } = .next u ∧
      u = { t with fb := u.fb, V := u.V } ∧ KeepsRegs [0xF#4] t u ∧
      ((∀ x y n, i ≠ .drw x y n) → u = { t with fb := u.fb })

/-- R28, R130: a step that changes the call stack ran RET, which takes the top, or CALL, which puts f + 2 on top. -/
def Obligations.StackChangesOnlyByCallAndRet : Prop :=
  ∀ s t : State, step s = .next t → t.stack ≠ s.stack →
    s.run = .running ∧ ∃ i, decodeWord (s.readByte s.pc.toNat ++ s.readByte (s.pc.toNat + 1)) = .ok i ∧
      ((i = .ret ∧ ∃ w, s.stack = t.stack ++ [w]) ∨
        ∃ nnn, i = .call nnn ∧ t.stack = s.stack ++ [s.pc + 2])

/-- R52, R35: a step that changes a byte of memory ran Fx33 or Fx55 with that byte in its range, at or below 0xFFF. -/
def Obligations.MemoryChangesOnlyInStoredRanges : Prop :=
  ∀ (s t : State) (a : Nat), step s = .next t → t.readByte a ≠ s.readByte a →
    s.run = .running ∧ a ≤ 0xFFF ∧ s.I.toNat ≤ a ∧
      ∃ x, (decodeWord (s.readByte s.pc.toNat ++ s.readByte (s.pc.toNat + 1)) = .ok (.ldB x) ∧
          a ≤ s.I.toNat + 2) ∨
        (decodeWord (s.readByte s.pc.toNat ++ s.readByte (s.pc.toNat + 1)) = .ok (.ldMemVx x) ∧
          a ≤ s.I.toNat + x.toNat)

/-- R29 with LOADSTORE_INCREMENT_I false (R8): a step that changes I ran Annn, Fx1E or Fx29, and left it in
0..0xFFF. -/
def Obligations.AddressRegisterChangesOnlyByItsWriters : Prop :=
  ∀ s t : State, step s = .next t → t.I ≠ s.I →
    s.run = .running ∧ t.I.toNat ≤ 0xFFF ∧
      ∃ i, decodeWord (s.readByte s.pc.toNat ++ s.readByte (s.pc.toNat + 1)) = .ok i ∧
        ((∃ nnn, i = .ldI nnn) ∨ (∃ x, i = .addI x) ∨ ∃ x, i = .ldF x)

/-- R26: pc after each instruction, s.pc being f + 2. The pressed keys are a free value (log 1). -/
def Obligations.PcAfterEachInstruction : Prop :=
  ∀ (i : Instr) (s t : State), exec i s = .next t →
    match i with
    | .jp nnn => t.pc = nnn.setWidth 16
    | .call nnn => t.pc = if s.stack.length < 16 then nnn.setWidth 16 else s.pc
    | .ret => (s.stack = [] → t.pc = s.pc) ∧ ∀ l w, s.stack = l ++ [w] → t.pc = w
    | .jpV0 nnn => t.pc.toNat = (s.getV 0x0#4).toNat + nnn.toNat
    | .seImm x nn => t.pc = if s.getV x = nn then s.pc + 2 else s.pc
    | .sneImm x nn => t.pc = if s.getV x = nn then s.pc else s.pc + 2
    | .seReg x y => t.pc = if s.getV x = s.getV y then s.pc + 2 else s.pc
    | .sneReg x y => t.pc = if s.getV x = s.getV y then s.pc else s.pc + 2
    | .skp x => t.pc = if (Config.pressedKeys s.draws).getLsbD (s.getV x).toNat then s.pc + 2 else s.pc
    | .sknp x => t.pc = if (Config.pressedKeys s.draws).getLsbD (s.getV x).toNat then s.pc else s.pc + 2
    | _ => t.pc = s.pc

/-- R232: a load that fits writes its bytes at 0x000 or 0x200 and changes nothing else; one that would pass 0xFFF is
refused (log 13). -/
def Obligations.LoadCopiesTheBytes : Prop :=
  ∀ (bytes : List Byte) (atFontRegion : Bool) (s : State) (base : Nat),
    base = (if atFontRegion then 0x000 else 0x200) →
    (base + bytes.length ≤ 0x1000 →
      ∃ t, load bytes atFontRegion s = .next t ∧
        (∀ k b, bytes[k]? = some b → t.readByte (base + k) = b) ∧
        (∀ a, a < base ∨ base + bytes.length ≤ a → t.readByte a = s.readByte a) ∧ t = { s with mem := t.mem }) ∧
    (0x1000 < base + bytes.length → load bytes atFontRegion s = .refused .loadPastTop)

/-- R62, R53: every byte that Fx55 or Fx33 stores is seen by every fetch that reads it, the very next one included, as
long as no later store changes it: in bits 15..8 at its own address, in bits 7..0 one address below. -/
def Obligations.StoredCodeIsFetched : Prop :=
  ∀ (s : State) (es : List HostEvent) (x : RegId) (stored : List Byte) (op : Word),
    s.run = .running → s.events = .step :: es → s.pc.toNat + 1 ≤ 0xFFF →
    op = s.readByte s.pc.toNat ++ s.readByte (s.pc.toNat + 1) →
    (decodeWord op = .ok (.ldMemVx x) ∧ stored = (List.range (x.toNat + 1)).map (fun k => s.getV (BitVec.ofNat 4 k))) ∨
      (decodeWord op = .ok (.ldB x) ∧ stored = bcdDigits (s.getV x)) →
    s.I.toNat + stored.length ≤ 0x1000 →
    ∃ t, step s = .next t ∧ t.pc = s.pc + 2 ∧ t.run = .running ∧
      ∀ (u : State) (k : Nat) (b : Byte), stored[k]? = some b →
        u.readByte (s.I.toNat + k) = t.readByte (s.I.toNat + k) →
        (u.pc.toNat = s.I.toNat + k → u.fetchOpcode.extractLsb' 8 8 = b) ∧
        (u.pc.toNat + 1 = s.I.toNat + k → u.fetchOpcode.extractLsb' 0 8 = b)

/-- R106, R108: an instruction either raised a fault, with that FAULT as the status, or gives OK, REDRAW (CLS, DRW) or
BLOCKED (Fx0A). -/
def Obligations.StatusOfEachInstruction : Prop :=
  ∀ (i : Instr) (s t : State), s.run = .running → exec i s = .next t →
    (∃ kind op f, t.run = .faulted kind op f ∧ t.status = some (.fault kind op f)) ∨
    ((∀ kind op f, t.run ≠ .faulted kind op f) ∧ t.status = some (completionStatus i))

/-- R105, R207: every instruction executes in every state: exec answers a next state and never stops. -/
def Obligations.EveryInstructionAnswers : Prop := ∀ (i : Instr) (s : State), ∃ t, exec i s = .next t

/-- R22 to R24: the frame of JP, JP V0, the six skips, LD, ADD, OR, AND, XOR, SUB, SUBN, SHR, SHL, RND and LD Vx, DT:
the destinations, pc and the status alone. -/
def Obligations.RegisterInstructionsFrame : Prop :=
  ∀ (i : Instr) (xs : List RegId) (s t : State), registerDestinations i = some xs → exec i s = .next t →
    OnlyRegsAndPc xs s t

/-- R100, R194 and log 4 (the model's choice): an event that is not enabled stops the model by name. -/
def Obligations.DisabledEventsStop : Prop :=
  (∀ (s : State) (x : RegId) (es : List HostEvent), s.run = .keyWait x → s.events = .step :: es →
    step s = .fault (.eventNotEnabled .step)) ∧
  (∀ (s : State) (k : Nibble) (es : List HostEvent), (∀ x, s.run ≠ .keyWait x) → s.events = .keyPress k :: es →
    step s = .fault (.eventNotEnabled (.keyPress k)))
end

