-- ==== Sys2Proof/Laws/Memory.lean ====
section
/-! SUPPORT. What the memory operations do, that they keep the canonical form, and that the form is canonical. -/
namespace Sys2Proof.Machine

/-- The bounds rule on a range (spec/20_memory.md R54(b)). -/
theorem inBoundsRange_iff (a len : Nat) : inBoundsRange a len = true ↔ len = 0 ∨ a + len - 1 ≤ 0xFFF := by
  simp [inBoundsRange, Config.topAddress]

/-- The bounds rule on a fetch (spec/20_memory.md R54(a)). -/
theorem inBoundsFetch_iff (pc : Word) : inBoundsFetch pc = true ↔ pc.toNat + 1 ≤ 0xFFF := by
  simp [inBoundsFetch, Config.topAddress]

/-- A memory with no cell at `a` reads there as an unlisted address does. -/
theorem Memory.read_absent {m : Memory} {a : Nat} (h : ∀ c ∈ m, c.1 ≠ a) : m.read a = unlistedByte := by
  induction m with
  | nil => rfl
  | cons c m ih =>
    have hc := h c (by simp)
    simp [Memory.read, hc, ih (fun d hd => h d (by simp [hd]))]

theorem Memory.read_erase (m : Memory) (a c : Nat) :
    (m.erase a).read c = if c = a then unlistedByte else m.read c := by
  induction m with
  | nil => simp [Memory.erase, Memory.read]
  | cons d m ih =>
    obtain ⟨k, b⟩ := d
    simp only [Memory.erase, List.filter_cons] at ih ⊢
    by_cases hk : k = a
    · subst hk
      simp only [bne_self_eq_false, Bool.false_eq_true, ↓reduceIte, ih, Memory.read]
      by_cases hc : c = k
      · simp [hc]
      · simp [hc, Ne.symm hc]
    · simp only [bne_iff_ne, ne_eq, hk, not_false_eq_true, ↓reduceIte, Memory.read, ih]
      by_cases hc : c = a
      · subst hc; simp [hk]
      · simp [hc]

theorem Memory.mem_erase {m : Memory} {a : Nat} {c : Host.Cell} : c ∈ m.erase a ↔ c ∈ m ∧ c.1 ≠ a := by
  simp [Memory.erase]

theorem Memory.read_insert {m : Memory} {a : Nat} (b : Byte) (h : ∀ c ∈ m, c.1 ≠ a) (c : Nat) :
    (Memory.insert a b m).read c = if c = a then b else m.read c := by
  induction m with
  | nil => simp [Memory.insert, Memory.read, eq_comm]
  | cons d m ih =>
    obtain ⟨k, v⟩ := d
    have hk : k ≠ a := h (k, v) (by simp)
    have ih := ih (fun d hd => h d (by simp [hd]))
    simp only [Memory.insert]
    split
    · by_cases hc : c = a
      · simp [Memory.read, hc]
      · simp [Memory.read, hc, Ne.symm hc]
    · simp only [Memory.read, ih]
      by_cases hc : c = a
      · subst hc; simp [hk]
      · simp [hc]

theorem Memory.mem_insert {m : Memory} {a : Nat} {b : Byte} {c : Host.Cell} :
    c ∈ Memory.insert a b m ↔ c = (a, b) ∨ c ∈ m := by
  induction m with
  | nil => simp [Memory.insert]
  | cons d m ih =>
    simp only [Memory.insert]
    split <;> simp [ih, or_left_comm]

/-- A byte written is the byte read at its address, and no other address changes; above 0xFFF there is no cell. -/
theorem Memory.read_write (m : Memory) (a : Nat) (b : Byte) (c : Nat) :
    (m.write a b).read c = if c = a ∧ a ≤ Config.topAddress then b else m.read c := by
  unfold Memory.write
  by_cases ha : a ≤ Config.topAddress
  · simp only [ha, ↓reduceIte, and_true]
    split
    · next hb => rw [Memory.read_erase, hb]
    · rw [Memory.read_insert b (fun d hd => (Memory.mem_erase.1 hd).2), Memory.read_erase]
      split <;> rfl
  · simp [ha]

theorem Memory.erase_wf {m : Memory} (h : m.wf) (a : Nat) : (m.erase a).wf :=
  ⟨h.1.filter _, fun c hc => h.2 c (Memory.mem_erase.1 hc).1⟩

theorem Memory.insert_rising {m : Memory} {a : Nat} (b : Byte)
    (h : m.Pairwise (fun x y => x.1 < y.1)) (ha : ∀ c ∈ m, c.1 ≠ a) :
    (Memory.insert a b m).Pairwise (fun x y => x.1 < y.1) := by
  induction m with
  | nil => simp [Memory.insert]
  | cons d m ih =>
    obtain ⟨hd, hm⟩ := List.pairwise_cons.1 h
    have hda := ha d (by simp)
    simp only [Memory.insert]
    split
    · next hlt =>
      refine List.pairwise_cons.2 ⟨fun c hc => ?_, h⟩
      rcases List.mem_cons.1 hc with rfl | hc
      · exact hlt
      · exact lt_trans hlt (hd c hc)
    · next hge =>
      refine List.pairwise_cons.2 ⟨fun c hc => ?_, ih hm (fun c hc => ha c (by simp [hc]))⟩
      rcases Memory.mem_insert.1 hc with rfl | hc
      · exact lt_of_le_of_ne (not_lt.1 hge) hda
      · exact hd c hc

/-- Writing a byte keeps the canonical form. -/
theorem Memory.write_wf {m : Memory} (h : m.wf) (a : Nat) (b : Byte) : (m.write a b).wf := by
  unfold Memory.write
  split
  · next ha =>
    split
    · exact Memory.erase_wf h a
    · next hb =>
      have he := Memory.erase_wf h a
      refine ⟨Memory.insert_rising b he.1 (fun c hc => (Memory.mem_erase.1 hc).2), fun c hc => ?_⟩
      rcases Memory.mem_insert.1 hc with rfl | hc
      · exact ⟨ha, hb⟩
      · exact he.2 c hc
  · exact h

/-- Writing bytes keeps the canonical form. -/
theorem Memory.writeBytes_wf {m : Memory} (h : m.wf) (a : Nat) (bs : List Byte) : (m.writeBytes a bs).wf := by
  induction bs generalizing m a with
  | nil => exact h
  | cons b bs ih => exact ih (Memory.write_wf h a b) (a + 1)

theorem Memory.readBytes_length (m : Memory) (a n : Nat) : (m.readBytes a n).length = n := by
  induction n generalizing a with
  | zero => rfl
  | succ n ih => simp [Memory.readBytes, ih]

theorem Memory.readBytes_getElem? (m : Memory) (a n k : Nat) :
    (m.readBytes a n)[k]? = if k < n then some (m.read (a + k)) else none := by
  induction n generalizing a k with
  | zero => simp [Memory.readBytes]
  | succ n ih =>
    cases k with
    | zero => simp [Memory.readBytes]
    | succ k => simp [Memory.readBytes, ih, Nat.add_assoc, Nat.add_comm 1]

/-- Everything a write of consecutive bytes does, when they end at or below 0xFFF: each byte stands at its
address and every other address reads as before. -/
theorem Memory.read_writeBytes (m : Memory) (a : Nat) (bs : List Byte) (h : inBoundsRange a bs.length) (c : Nat) :
    (m.writeBytes a bs).read c = if a ≤ c ∧ c < a + bs.length then bs.getD (c - a) 0 else m.read c := by
  induction bs generalizing m a with
  | nil =>
    have : ¬ (a ≤ c ∧ c < a) := by omega
    simp [Memory.writeBytes, this]
  | cons b bs ih =>
    have h0 : a + bs.length ≤ Config.topAddress := by simpa [inBoundsRange] using h
    have h1 : inBoundsRange (a + 1) bs.length := by
      simp only [inBoundsRange, Bool.or_eq_true, beq_iff_eq, decide_eq_true_eq]
      omega
    have ha : a ≤ Config.topAddress := by omega
    rw [Memory.writeBytes, ih _ _ h1, Memory.read_write]
    simp only [ha, and_true, List.length_cons]
    by_cases hca : c = a
    · subst hca; simp
    · by_cases hlt : a ≤ c ∧ c < a + (bs.length + 1)
      · have : a + 1 ≤ c ∧ c < a + 1 + bs.length := by omega
        have hs : c - a = (c - (a + 1)) + 1 := by omega
        simp [hlt, this, hs]
      · rw [if_neg (by omega : ¬ (a + 1 ≤ c ∧ c < a + 1 + bs.length)), if_neg hlt, if_neg hca]

/-- Memories in canonical form that read the same everywhere are the same list. -/
theorem Memory.wf_ext {m m' : Memory} (h : m.wf) (h' : m'.wf) (e : ∀ a, m.read a = m'.read a) : m = m' := by
  induction m generalizing m' with
  | nil =>
    cases m' with
    | nil => rfl
    | cons d m' => exact absurd (by simpa [Memory.read] using (e d.1).symm) (h'.2 d (by simp)).2
  | cons d m ih =>
    obtain ⟨hd, hm⟩ := List.pairwise_cons.1 h.1
    have hdn := (h.2 d (by simp)).2
    cases m' with
    | nil => exact absurd (by simpa [Memory.read] using e d.1) hdn
    | cons d' m' =>
      obtain ⟨hd', hm'⟩ := List.pairwise_cons.1 h'.1
      have hdn' := (h'.2 d' (by simp)).2
      have hle : ∀ {x y : Host.Cell} {l : Memory}, x.2 ≠ unlistedByte → (∀ c ∈ l, y.1 < c.1) →
          (unlistedByte ≠ Memory.read (y :: l) x.1) → y.1 ≤ x.1 := by
        intro x y l _ hy hr
        by_contra hlt
        refine hr (Memory.read_absent (fun c hc => ?_)).symm
        rcases List.mem_cons.1 hc with rfl | hc
        · omega
        · have := hy c hc; omega
      have e1 : Memory.read (d' :: m') d.1 = d.2 := by rw [← e]; simp [Memory.read]
      have e2 : Memory.read (d :: m) d'.1 = d'.2 := by rw [e]; simp [Memory.read]
      have k1 := hle hdn hd' (by rw [e1]; exact hdn.symm)
      have k2 := hle hdn' hd (by rw [e2]; exact hdn'.symm)
      have hk : d.1 = d'.1 := by omega
      have hb : d.2 = d'.2 := by rw [← e1]; simp [Memory.read, hk]
      have hdd : d = d' := Prod.ext hk hb
      subst hdd
      congr 1
      refine ih ⟨hm, fun c hc => h.2 c (by simp [hc])⟩ ⟨hm', fun c hc => h'.2 c (by simp [hc])⟩ fun a => ?_
      have ea := e a
      simp only [Memory.read] at ea
      by_cases hda : d.1 = a
      · rw [Memory.read_absent (fun c hc => by have := hd c hc; omega),
          Memory.read_absent (fun c hc => by have := hd' c hc; omega)]
      · simpa [hda] using ea

end Sys2Proof.Machine
end

