-- ==== Sys2Proof/Laws/State.lean ====
section
/-! SUPPORT. What each named update does to each field of the state, and to a register, a byte and a pixel. -/
namespace Sys2Proof.Machine

@[simp] theorem State.setV_mem (s : State) (x : RegId) (b : Byte) : (s.setV x b).mem = s.mem := rfl
@[simp] theorem State.setV_I (s : State) (x : RegId) (b : Byte) : (s.setV x b).I = s.I := rfl
@[simp] theorem State.setV_pc (s : State) (x : RegId) (b : Byte) : (s.setV x b).pc = s.pc := rfl
@[simp] theorem State.setV_stack (s : State) (x : RegId) (b : Byte) : (s.setV x b).stack = s.stack := rfl
@[simp] theorem State.setV_DT (s : State) (x : RegId) (b : Byte) : (s.setV x b).DT = s.DT := rfl
@[simp] theorem State.setV_ST (s : State) (x : RegId) (b : Byte) : (s.setV x b).ST = s.ST := rfl
@[simp] theorem State.setV_fb (s : State) (x : RegId) (b : Byte) : (s.setV x b).fb = s.fb := rfl
@[simp] theorem State.setV_run (s : State) (x : RegId) (b : Byte) : (s.setV x b).run = s.run := rfl
@[simp] theorem State.setV_status (s : State) (x : RegId) (b : Byte) : (s.setV x b).status = s.status := rfl
@[simp] theorem State.setV_draws (s : State) (x : RegId) (b : Byte) : (s.setV x b).draws = s.draws := rfl
@[simp] theorem State.setV_events (s : State) (x : RegId) (b : Byte) : (s.setV x b).events = s.events := rfl
@[simp] theorem State.setV_readByte (s : State) (x : RegId) (b : Byte) (a : Nat) : (s.setV x b).readByte a = s.readByte a := rfl
@[simp] theorem State.setV_pixel (s : State) (x : RegId) (b : Byte) (p : Fin 64) (q : Fin 32) : (s.setV x b).pixel p q = s.pixel p q := rfl

@[simp] theorem State.setI_mem (s : State) (w : Word) : (s.setI w).mem = s.mem := rfl
@[simp] theorem State.setI_V (s : State) (w : Word) : (s.setI w).V = s.V := rfl
@[simp] theorem State.setI_I (s : State) (w : Word) : (s.setI w).I = w := rfl
@[simp] theorem State.setI_pc (s : State) (w : Word) : (s.setI w).pc = s.pc := rfl
@[simp] theorem State.setI_stack (s : State) (w : Word) : (s.setI w).stack = s.stack := rfl
@[simp] theorem State.setI_DT (s : State) (w : Word) : (s.setI w).DT = s.DT := rfl
@[simp] theorem State.setI_ST (s : State) (w : Word) : (s.setI w).ST = s.ST := rfl
@[simp] theorem State.setI_fb (s : State) (w : Word) : (s.setI w).fb = s.fb := rfl
@[simp] theorem State.setI_run (s : State) (w : Word) : (s.setI w).run = s.run := rfl
@[simp] theorem State.setI_status (s : State) (w : Word) : (s.setI w).status = s.status := rfl
@[simp] theorem State.setI_draws (s : State) (w : Word) : (s.setI w).draws = s.draws := rfl
@[simp] theorem State.setI_events (s : State) (w : Word) : (s.setI w).events = s.events := rfl
@[simp] theorem State.setI_getV (s : State) (w : Word) (j : RegId) : (s.setI w).getV j = s.getV j := rfl
@[simp] theorem State.setI_readByte (s : State) (w : Word) (a : Nat) : (s.setI w).readByte a = s.readByte a := rfl
@[simp] theorem State.setI_pixel (s : State) (w : Word) (p : Fin 64) (q : Fin 32) : (s.setI w).pixel p q = s.pixel p q := rfl

@[simp] theorem State.setPc_mem (s : State) (w : Word) : (s.setPc w).mem = s.mem := rfl
@[simp] theorem State.setPc_V (s : State) (w : Word) : (s.setPc w).V = s.V := rfl
@[simp] theorem State.setPc_I (s : State) (w : Word) : (s.setPc w).I = s.I := rfl
@[simp] theorem State.setPc_pc (s : State) (w : Word) : (s.setPc w).pc = w := rfl
@[simp] theorem State.setPc_stack (s : State) (w : Word) : (s.setPc w).stack = s.stack := rfl
@[simp] theorem State.setPc_DT (s : State) (w : Word) : (s.setPc w).DT = s.DT := rfl
@[simp] theorem State.setPc_ST (s : State) (w : Word) : (s.setPc w).ST = s.ST := rfl
@[simp] theorem State.setPc_fb (s : State) (w : Word) : (s.setPc w).fb = s.fb := rfl
@[simp] theorem State.setPc_run (s : State) (w : Word) : (s.setPc w).run = s.run := rfl
@[simp] theorem State.setPc_status (s : State) (w : Word) : (s.setPc w).status = s.status := rfl
@[simp] theorem State.setPc_draws (s : State) (w : Word) : (s.setPc w).draws = s.draws := rfl
@[simp] theorem State.setPc_events (s : State) (w : Word) : (s.setPc w).events = s.events := rfl
@[simp] theorem State.setPc_getV (s : State) (w : Word) (j : RegId) : (s.setPc w).getV j = s.getV j := rfl
@[simp] theorem State.setPc_readByte (s : State) (w : Word) (a : Nat) : (s.setPc w).readByte a = s.readByte a := rfl
@[simp] theorem State.setPc_pixel (s : State) (w : Word) (p : Fin 64) (q : Fin 32) : (s.setPc w).pixel p q = s.pixel p q := rfl

@[simp] theorem State.setStack_mem (s : State) (l : List Word) : (s.setStack l).mem = s.mem := rfl
@[simp] theorem State.setStack_V (s : State) (l : List Word) : (s.setStack l).V = s.V := rfl
@[simp] theorem State.setStack_I (s : State) (l : List Word) : (s.setStack l).I = s.I := rfl
@[simp] theorem State.setStack_pc (s : State) (l : List Word) : (s.setStack l).pc = s.pc := rfl
@[simp] theorem State.setStack_stack (s : State) (l : List Word) : (s.setStack l).stack = l := rfl
@[simp] theorem State.setStack_DT (s : State) (l : List Word) : (s.setStack l).DT = s.DT := rfl
@[simp] theorem State.setStack_ST (s : State) (l : List Word) : (s.setStack l).ST = s.ST := rfl
@[simp] theorem State.setStack_fb (s : State) (l : List Word) : (s.setStack l).fb = s.fb := rfl
@[simp] theorem State.setStack_run (s : State) (l : List Word) : (s.setStack l).run = s.run := rfl
@[simp] theorem State.setStack_status (s : State) (l : List Word) : (s.setStack l).status = s.status := rfl
@[simp] theorem State.setStack_draws (s : State) (l : List Word) : (s.setStack l).draws = s.draws := rfl
@[simp] theorem State.setStack_events (s : State) (l : List Word) : (s.setStack l).events = s.events := rfl
@[simp] theorem State.setStack_getV (s : State) (l : List Word) (j : RegId) : (s.setStack l).getV j = s.getV j := rfl
@[simp] theorem State.setStack_readByte (s : State) (l : List Word) (a : Nat) : (s.setStack l).readByte a = s.readByte a := rfl
@[simp] theorem State.setStack_pixel (s : State) (l : List Word) (p : Fin 64) (q : Fin 32) : (s.setStack l).pixel p q = s.pixel p q := rfl

@[simp] theorem State.setDT_mem (s : State) (b : Byte) : (s.setDT b).mem = s.mem := rfl
@[simp] theorem State.setDT_V (s : State) (b : Byte) : (s.setDT b).V = s.V := rfl
@[simp] theorem State.setDT_I (s : State) (b : Byte) : (s.setDT b).I = s.I := rfl
@[simp] theorem State.setDT_pc (s : State) (b : Byte) : (s.setDT b).pc = s.pc := rfl
@[simp] theorem State.setDT_stack (s : State) (b : Byte) : (s.setDT b).stack = s.stack := rfl
@[simp] theorem State.setDT_DT (s : State) (b : Byte) : (s.setDT b).DT = b := rfl
@[simp] theorem State.setDT_ST (s : State) (b : Byte) : (s.setDT b).ST = s.ST := rfl
@[simp] theorem State.setDT_fb (s : State) (b : Byte) : (s.setDT b).fb = s.fb := rfl
@[simp] theorem State.setDT_run (s : State) (b : Byte) : (s.setDT b).run = s.run := rfl
@[simp] theorem State.setDT_status (s : State) (b : Byte) : (s.setDT b).status = s.status := rfl
@[simp] theorem State.setDT_draws (s : State) (b : Byte) : (s.setDT b).draws = s.draws := rfl
@[simp] theorem State.setDT_events (s : State) (b : Byte) : (s.setDT b).events = s.events := rfl
@[simp] theorem State.setDT_getV (s : State) (b : Byte) (j : RegId) : (s.setDT b).getV j = s.getV j := rfl
@[simp] theorem State.setDT_readByte (s : State) (b : Byte) (a : Nat) : (s.setDT b).readByte a = s.readByte a := rfl
@[simp] theorem State.setDT_pixel (s : State) (b : Byte) (p : Fin 64) (q : Fin 32) : (s.setDT b).pixel p q = s.pixel p q := rfl

@[simp] theorem State.setST_mem (s : State) (b : Byte) : (s.setST b).mem = s.mem := rfl
@[simp] theorem State.setST_V (s : State) (b : Byte) : (s.setST b).V = s.V := rfl
@[simp] theorem State.setST_I (s : State) (b : Byte) : (s.setST b).I = s.I := rfl
@[simp] theorem State.setST_pc (s : State) (b : Byte) : (s.setST b).pc = s.pc := rfl
@[simp] theorem State.setST_stack (s : State) (b : Byte) : (s.setST b).stack = s.stack := rfl
@[simp] theorem State.setST_DT (s : State) (b : Byte) : (s.setST b).DT = s.DT := rfl
@[simp] theorem State.setST_ST (s : State) (b : Byte) : (s.setST b).ST = b := rfl
@[simp] theorem State.setST_fb (s : State) (b : Byte) : (s.setST b).fb = s.fb := rfl
@[simp] theorem State.setST_run (s : State) (b : Byte) : (s.setST b).run = s.run := rfl
@[simp] theorem State.setST_status (s : State) (b : Byte) : (s.setST b).status = s.status := rfl
@[simp] theorem State.setST_draws (s : State) (b : Byte) : (s.setST b).draws = s.draws := rfl
@[simp] theorem State.setST_events (s : State) (b : Byte) : (s.setST b).events = s.events := rfl
@[simp] theorem State.setST_getV (s : State) (b : Byte) (j : RegId) : (s.setST b).getV j = s.getV j := rfl
@[simp] theorem State.setST_readByte (s : State) (b : Byte) (a : Nat) : (s.setST b).readByte a = s.readByte a := rfl
@[simp] theorem State.setST_pixel (s : State) (b : Byte) (p : Fin 64) (q : Fin 32) : (s.setST b).pixel p q = s.pixel p q := rfl

@[simp] theorem State.setFb_mem (s : State) (g : Framebuffer) : (s.setFb g).mem = s.mem := rfl
@[simp] theorem State.setFb_V (s : State) (g : Framebuffer) : (s.setFb g).V = s.V := rfl
@[simp] theorem State.setFb_I (s : State) (g : Framebuffer) : (s.setFb g).I = s.I := rfl
@[simp] theorem State.setFb_pc (s : State) (g : Framebuffer) : (s.setFb g).pc = s.pc := rfl
@[simp] theorem State.setFb_stack (s : State) (g : Framebuffer) : (s.setFb g).stack = s.stack := rfl
@[simp] theorem State.setFb_DT (s : State) (g : Framebuffer) : (s.setFb g).DT = s.DT := rfl
@[simp] theorem State.setFb_ST (s : State) (g : Framebuffer) : (s.setFb g).ST = s.ST := rfl
@[simp] theorem State.setFb_fb (s : State) (g : Framebuffer) : (s.setFb g).fb = g := rfl
@[simp] theorem State.setFb_run (s : State) (g : Framebuffer) : (s.setFb g).run = s.run := rfl
@[simp] theorem State.setFb_status (s : State) (g : Framebuffer) : (s.setFb g).status = s.status := rfl
@[simp] theorem State.setFb_draws (s : State) (g : Framebuffer) : (s.setFb g).draws = s.draws := rfl
@[simp] theorem State.setFb_events (s : State) (g : Framebuffer) : (s.setFb g).events = s.events := rfl
@[simp] theorem State.setFb_getV (s : State) (g : Framebuffer) (j : RegId) : (s.setFb g).getV j = s.getV j := rfl
@[simp] theorem State.setFb_readByte (s : State) (g : Framebuffer) (a : Nat) : (s.setFb g).readByte a = s.readByte a := rfl

@[simp] theorem State.setMem_mem (s : State) (m : Memory) : (s.setMem m).mem = m := rfl
@[simp] theorem State.setMem_V (s : State) (m : Memory) : (s.setMem m).V = s.V := rfl
@[simp] theorem State.setMem_I (s : State) (m : Memory) : (s.setMem m).I = s.I := rfl
@[simp] theorem State.setMem_pc (s : State) (m : Memory) : (s.setMem m).pc = s.pc := rfl
@[simp] theorem State.setMem_stack (s : State) (m : Memory) : (s.setMem m).stack = s.stack := rfl
@[simp] theorem State.setMem_DT (s : State) (m : Memory) : (s.setMem m).DT = s.DT := rfl
@[simp] theorem State.setMem_ST (s : State) (m : Memory) : (s.setMem m).ST = s.ST := rfl
@[simp] theorem State.setMem_fb (s : State) (m : Memory) : (s.setMem m).fb = s.fb := rfl
@[simp] theorem State.setMem_run (s : State) (m : Memory) : (s.setMem m).run = s.run := rfl
@[simp] theorem State.setMem_status (s : State) (m : Memory) : (s.setMem m).status = s.status := rfl
@[simp] theorem State.setMem_draws (s : State) (m : Memory) : (s.setMem m).draws = s.draws := rfl
@[simp] theorem State.setMem_events (s : State) (m : Memory) : (s.setMem m).events = s.events := rfl
@[simp] theorem State.setMem_getV (s : State) (m : Memory) (j : RegId) : (s.setMem m).getV j = s.getV j := rfl
@[simp] theorem State.setMem_pixel (s : State) (m : Memory) (p : Fin 64) (q : Fin 32) : (s.setMem m).pixel p q = s.pixel p q := rfl

@[simp] theorem State.setRun_mem (s : State) (r : RunStatus) : (s.setRun r).mem = s.mem := rfl
@[simp] theorem State.setRun_V (s : State) (r : RunStatus) : (s.setRun r).V = s.V := rfl
@[simp] theorem State.setRun_I (s : State) (r : RunStatus) : (s.setRun r).I = s.I := rfl
@[simp] theorem State.setRun_pc (s : State) (r : RunStatus) : (s.setRun r).pc = s.pc := rfl
@[simp] theorem State.setRun_stack (s : State) (r : RunStatus) : (s.setRun r).stack = s.stack := rfl
@[simp] theorem State.setRun_DT (s : State) (r : RunStatus) : (s.setRun r).DT = s.DT := rfl
@[simp] theorem State.setRun_ST (s : State) (r : RunStatus) : (s.setRun r).ST = s.ST := rfl
@[simp] theorem State.setRun_fb (s : State) (r : RunStatus) : (s.setRun r).fb = s.fb := rfl
@[simp] theorem State.setRun_run (s : State) (r : RunStatus) : (s.setRun r).run = r := rfl
@[simp] theorem State.setRun_status (s : State) (r : RunStatus) : (s.setRun r).status = s.status := rfl
@[simp] theorem State.setRun_draws (s : State) (r : RunStatus) : (s.setRun r).draws = s.draws := rfl
@[simp] theorem State.setRun_events (s : State) (r : RunStatus) : (s.setRun r).events = s.events := rfl
@[simp] theorem State.setRun_getV (s : State) (r : RunStatus) (j : RegId) : (s.setRun r).getV j = s.getV j := rfl
@[simp] theorem State.setRun_readByte (s : State) (r : RunStatus) (a : Nat) : (s.setRun r).readByte a = s.readByte a := rfl
@[simp] theorem State.setRun_pixel (s : State) (r : RunStatus) (p : Fin 64) (q : Fin 32) : (s.setRun r).pixel p q = s.pixel p q := rfl

@[simp] theorem State.setStatus_mem (s : State) (st : Status) : (s.setStatus st).mem = s.mem := rfl
@[simp] theorem State.setStatus_V (s : State) (st : Status) : (s.setStatus st).V = s.V := rfl
@[simp] theorem State.setStatus_I (s : State) (st : Status) : (s.setStatus st).I = s.I := rfl
@[simp] theorem State.setStatus_pc (s : State) (st : Status) : (s.setStatus st).pc = s.pc := rfl
@[simp] theorem State.setStatus_stack (s : State) (st : Status) : (s.setStatus st).stack = s.stack := rfl
@[simp] theorem State.setStatus_DT (s : State) (st : Status) : (s.setStatus st).DT = s.DT := rfl
@[simp] theorem State.setStatus_ST (s : State) (st : Status) : (s.setStatus st).ST = s.ST := rfl
@[simp] theorem State.setStatus_fb (s : State) (st : Status) : (s.setStatus st).fb = s.fb := rfl
@[simp] theorem State.setStatus_run (s : State) (st : Status) : (s.setStatus st).run = s.run := rfl
@[simp] theorem State.setStatus_status (s : State) (st : Status) : (s.setStatus st).status = some st := rfl
@[simp] theorem State.setStatus_draws (s : State) (st : Status) : (s.setStatus st).draws = s.draws := rfl
@[simp] theorem State.setStatus_events (s : State) (st : Status) : (s.setStatus st).events = s.events := rfl
@[simp] theorem State.setStatus_getV (s : State) (st : Status) (j : RegId) : (s.setStatus st).getV j = s.getV j := rfl
@[simp] theorem State.setStatus_readByte (s : State) (st : Status) (a : Nat) : (s.setStatus st).readByte a = s.readByte a := rfl
@[simp] theorem State.setStatus_pixel (s : State) (st : Status) (p : Fin 64) (q : Fin 32) : (s.setStatus st).pixel p q = s.pixel p q := rfl

@[simp] theorem State.draw_mem (s : State) : (s.draw).mem = s.mem := rfl
@[simp] theorem State.draw_V (s : State) : (s.draw).V = s.V := rfl
@[simp] theorem State.draw_I (s : State) : (s.draw).I = s.I := rfl
@[simp] theorem State.draw_pc (s : State) : (s.draw).pc = s.pc := rfl
@[simp] theorem State.draw_stack (s : State) : (s.draw).stack = s.stack := rfl
@[simp] theorem State.draw_DT (s : State) : (s.draw).DT = s.DT := rfl
@[simp] theorem State.draw_ST (s : State) : (s.draw).ST = s.ST := rfl
@[simp] theorem State.draw_fb (s : State) : (s.draw).fb = s.fb := rfl
@[simp] theorem State.draw_run (s : State) : (s.draw).run = s.run := rfl
@[simp] theorem State.draw_status (s : State) : (s.draw).status = s.status := rfl
@[simp] theorem State.draw_draws (s : State) : (s.draw).draws = s.draws + 1 := rfl
@[simp] theorem State.draw_events (s : State) : (s.draw).events = s.events := rfl
@[simp] theorem State.draw_getV (s : State) (j : RegId) : (s.draw).getV j = s.getV j := rfl
@[simp] theorem State.draw_readByte (s : State) (a : Nat) : (s.draw).readByte a = s.readByte a := rfl
@[simp] theorem State.draw_pixel (s : State) (p : Fin 64) (q : Fin 32) : (s.draw).pixel p q = s.pixel p q := rfl

@[simp] theorem State.setEvents_mem (s : State) (es : List HostEvent) : (s.setEvents es).mem = s.mem := rfl
@[simp] theorem State.setEvents_V (s : State) (es : List HostEvent) : (s.setEvents es).V = s.V := rfl
@[simp] theorem State.setEvents_I (s : State) (es : List HostEvent) : (s.setEvents es).I = s.I := rfl
@[simp] theorem State.setEvents_pc (s : State) (es : List HostEvent) : (s.setEvents es).pc = s.pc := rfl
@[simp] theorem State.setEvents_stack (s : State) (es : List HostEvent) : (s.setEvents es).stack = s.stack := rfl
@[simp] theorem State.setEvents_DT (s : State) (es : List HostEvent) : (s.setEvents es).DT = s.DT := rfl
@[simp] theorem State.setEvents_ST (s : State) (es : List HostEvent) : (s.setEvents es).ST = s.ST := rfl
@[simp] theorem State.setEvents_fb (s : State) (es : List HostEvent) : (s.setEvents es).fb = s.fb := rfl
@[simp] theorem State.setEvents_run (s : State) (es : List HostEvent) : (s.setEvents es).run = s.run := rfl
@[simp] theorem State.setEvents_status (s : State) (es : List HostEvent) : (s.setEvents es).status = s.status := rfl
@[simp] theorem State.setEvents_draws (s : State) (es : List HostEvent) : (s.setEvents es).draws = s.draws := rfl
@[simp] theorem State.setEvents_events (s : State) (es : List HostEvent) : (s.setEvents es).events = es := rfl
@[simp] theorem State.setEvents_getV (s : State) (es : List HostEvent) (j : RegId) : (s.setEvents es).getV j = s.getV j := rfl
@[simp] theorem State.setEvents_readByte (s : State) (es : List HostEvent) (a : Nat) : (s.setEvents es).readByte a = s.readByte a := rfl
@[simp] theorem State.setEvents_pixel (s : State) (es : List HostEvent) (p : Fin 64) (q : Fin 32) : (s.setEvents es).pixel p q = s.pixel p q := rfl

theorem State.setV_getV (s : State) (x : RegId) (b : Byte) (j : RegId) :
    (s.setV x b).getV j = if j = x then b else s.getV j := by
  simp only [State.setV, State.getV, Vector.get_eq_getElem, Vector.getElem_set, BitVec.val_toFin]
  by_cases h : j = x
  · subst h; simp
  · have : x.toNat ≠ j.toNat := fun e => h (BitVec.eq_of_toNat_eq e.symm)
    simp [h, this]

theorem State.setV_getV_same (s : State) (x : RegId) (b : Byte) : (s.setV x b).getV x = b := by
  simp [State.setV_getV]

theorem State.setV_getV_ne (s : State) {x j : RegId} (b : Byte) (h : j ≠ x) :
    (s.setV x b).getV j = s.getV j := by
  simp [State.setV_getV, h]

/-- Two states whose sixteen registers agree hold the same register file. -/
theorem State.V_ext {s t : State} (h : ∀ j : RegId, s.getV j = t.getV j) : s.V = t.V := by
  apply Vector.ext
  intro k hk
  have := h (BitVec.ofNat 4 k)
  simpa [State.getV, Vector.get_eq_getElem, Nat.mod_eq_of_lt hk] using this

end Sys2Proof.Machine
end

