-- ==== Sys2Proof/Laws/Ops.lean ====
section
/-! SUPPORT. What each shared operation can do, said once. -/
namespace Sys2Proof.Machine

/-- Taking a fault answers a next state: the record, the status, and nothing else (spec/60_exceptions.md R201). -/
theorem takeFault_eq (kind : FaultKind) (op : Word) (s : State) :
    takeFault kind op s =
      .next { s with run := .faulted kind op (s.pc - 2), status := some (.fault kind op (s.pc - 2)) } := rfl

theorem raise_eq (kind : FaultKind) (i : Instr) (s : State) :
    raise kind i s =
      .next { s with run := .faulted kind (encode i) (s.pc - 2),
                     status := some (.fault kind (encode i) (s.pc - 2)) } := rfl

theorem finish_eq (st : Status) (s : State) : finish st s = .next (s.setStatus st) := rfl

/-- pop answers the last element and leaves the rest, exactly when the stack is not empty. -/
theorem State.pop_append (s : State) (l : List Word) (w : Word) (h : s.stack = l ++ [w]) :
    s.pop = some (w, s.setStack l) := by simp [State.pop, h]

theorem State.pop_empty (s : State) (h : s.stack = []) : s.pop = none := by simp [State.pop, h]

theorem State.pop_some {s s' : State} {w : Word} (h : s.pop = some (w, s')) :
    ∃ l, s.stack = l ++ [w] ∧ s' = s.setStack l := by
  simp only [State.pop] at h
  split at h
  · next top ht =>
    obtain ⟨l, hl⟩ := List.getLast?_eq_some_iff.1 ht
    simp only [Option.some.injEq, Prod.mk.injEq] at h
    refine ⟨l, by rw [hl, h.1], ?_⟩
    rw [← h.2, hl, List.dropLast_concat]
  · cases h

/-- push appends the new top, exactly when there is room. -/
theorem State.push_some {cap : Nat} {s s' : State} {w : Word} (h : s.push cap w = some s') :
    s.stack.length < cap ∧ s' = s.setStack (s.stack ++ [w]) := by
  simp only [State.push] at h
  split at h
  · next hl => exact ⟨hl, by simpa using h.symm⟩
  · cases h

/-- Either order writes the flag to VF and the result to V[x]; they differ only at x = F (spec/10_state.md R25). -/
theorem writeResultAndFlag_getV (o : Config.VfWriteOrder) (x : RegId) (r : Byte) (f : Bool) (s : State) (j : RegId) :
    (writeResultAndFlag o x r f s).getV j =
      if j = vf ∧ (o = .flagLast ∨ x ≠ vf) then flagByte f else if j = x then r else s.getV j := by
  cases o <;> simp only [writeResultAndFlag, State.setV_getV]
  · simp
  · by_cases hx : j = x
    · subst hx
      by_cases hj : j = vf <;> simp [hj]
    · by_cases hj : j = vf
      · have : x ≠ vf := fun e => hx (hj.trans e.symm)
        simp [hj, this, Ne.symm this]
      · simp [hx, hj]

/-- The two writes touch the register file alone. -/
theorem writeResultAndFlag_eq (o : Config.VfWriteOrder) (x : RegId) (r : Byte) (f : Bool) (s : State) :
    writeResultAndFlag o x r f s = { s with V := (writeResultAndFlag o x r f s).V } := by
  cases o <;> rfl

/-- Writing registers from k on touches the register file alone. -/
theorem State.setRegs_eq (s : State) (k : Nat) (bs : List Byte) :
    s.setRegs k bs = { s with V := (s.setRegs k bs).V } := by
  induction bs generalizing s k with
  | nil => rfl
  | cons b bs ih => rw [State.setRegs, ih]; rfl

/-- The registers k, k+1, ... take the bytes in order; every other register keeps its value. -/
theorem State.setRegs_getV (s : State) (k : Nat) (bs : List Byte) (h : k + bs.length ≤ 16) (j : RegId) :
    (s.setRegs k bs).getV j =
      if k ≤ j.toNat ∧ j.toNat < k + bs.length then bs.getD (j.toNat - k) 0 else s.getV j := by
  induction bs generalizing s k with
  | nil =>
    have : ¬ (k ≤ j.toNat ∧ j.toNat < k) := by omega
    simp [State.setRegs, this]
  | cons b bs ih =>
    simp only [List.length_cons] at h ⊢
    rw [State.setRegs, ih _ _ (by omega), State.setV_getV]
    have hk : j = BitVec.ofNat 4 k ↔ j.toNat = k := by
      constructor
      · rintro rfl; simp; omega
      · intro e; apply BitVec.eq_of_toNat_eq; simp [e]; omega
    by_cases hj : j.toNat = k
    · rw [if_neg (by omega), if_pos (hk.2 hj), if_pos (by omega), hj]; simp
    · rw [if_neg (fun e => hj (hk.1 e)) (c := j = BitVec.ofNat 4 k)]
      by_cases hlt : k ≤ j.toNat ∧ j.toNat < k + (bs.length + 1)
      · have e : j.toNat - k = (j.toNat - (k + 1)) + 1 := by omega
        rw [if_pos (by omega), if_pos hlt, e]; simp
      · rw [if_neg (by omega), if_neg hlt]

theorem State.getRegs_length (s : State) (k n : Nat) : (s.getRegs k n).length = n := by
  induction n generalizing k with
  | zero => rfl
  | succ n ih => simp [State.getRegs, ih]

/-- The listed values are those of the registers k, k+1, ... in order. -/
theorem State.getRegs_getElem? (s : State) (k n m : Nat) :
    (s.getRegs k n)[m]? = if m < n then some (s.getV (BitVec.ofNat 4 (k + m))) else none := by
  induction n generalizing k m with
  | zero => simp [State.getRegs]
  | succ n ih =>
    cases m with
    | zero => simp [State.getRegs]
    | succ m => simp [State.getRegs, ih, Nat.add_assoc, Nat.add_comm 1]

/-- A KeyPress ends the wait with the key in V[x], and is not enabled outside one. -/
theorem keyPress_next {k : Nibble} {s t : State} (h : keyPress k s = .next t) :
    ∃ x, s.run = .keyWait x ∧ t = ((s.setV x (k.setWidth 8)).setRun .running).setStatus .ok := by
  unfold keyPress at h
  split at h
  · next x hx => exact ⟨x, hx, by simpa [finish] using h.symm⟩
  · cases h
  · cases h

/-- A load that fits replaces memory and nothing else; one that does not is refused. -/
theorem load_eq (bytes : List Byte) (atFont : Bool) (s : State) :
    load bytes atFont s =
      if inBoundsRange (if atFont then Config.fontOrigin else Config.programOrigin) bytes.length then
        .next (s.setMem (s.mem.writeBytes (if atFont then Config.fontOrigin else Config.programOrigin) bytes))
      else .refused .loadPastTop := rfl

end Sys2Proof.Machine
end

