-- ==== Sys2Proof/Laws/Exec.lean ====
section
/-! SUPPORT. What an instruction can do, said once: it raises one of the faults the spec gives it, or it completes
with its status and writes only the fields named here. Whole-machine proofs start from `exec_cases`. -/
namespace Sys2Proof.Machine

/-- The fault kinds an instruction can raise (spec/60_exceptions.md R200). -/
def CanRaise (kind : FaultKind) : Instr → Prop
  | .sys _ => kind = .invalidOpcode
  | .call _ => kind = .stackOverflow
  | .ret => kind = .stackUnderflow
  | .drw .. | .ldB _ | .ldMemVx _ | .ldVxMem _ => kind = .memoryBounds
  | .cls | .jp _ | .seImm .. | .sneImm .. | .seReg .. | .sneReg .. | .jpV0 _ | .skp _ | .sknp _ => False
  | .ldImm .. | .addImm .. | .ldReg .. | .orReg .. | .andReg .. | .xorReg .. | .addReg .. | .sub .. => False
  | .shr .. | .subn .. | .shl .. | .rnd .. | .ldI _ | .ldVxDt _ | .ldVxK _ | .ldDtVx _ | .ldStVx _ => False
  | .addI _ | .ldF _ => False

/-- The fields a completed instruction writes, with their values where the value matters outside the instruction:
`u` is the state before the status is set. -/
def Writes (s u : State) : Instr → Prop
  | .sys _ => False
  | .cls => u = { s with fb := u.fb }
  | .ret => ∃ l w, s.stack = l ++ [w] ∧ u = { s with stack := l, pc := w }
  | .jp nnn => u = { s with pc := zextAddr nnn }
  | .call nnn => s.stack.length < stackCapacity ∧ u = { s with stack := s.stack ++ [s.pc], pc := zextAddr nnn }
  | .jpV0 nnn => u = { s with pc := zextByte (s.getV 0x0#4) + zextAddr nnn }
  | .seImm .. | .sneImm .. | .seReg .. | .sneReg .. =>
    (u.pc = s.pc ∨ u.pc = s.pc + 2) ∧ u = { s with pc := u.pc }
  | .skp _ | .sknp _ => (u.pc = s.pc ∨ u.pc = s.pc + 2) ∧ u = { s with pc := u.pc, draws := u.draws }
  | .ldImm .. | .addImm .. | .ldReg .. | .orReg .. | .andReg .. | .xorReg .. => u = { s with V := u.V }
  | .addReg .. | .sub .. | .shr .. | .subn .. | .shl .. | .ldVxDt _ => u = { s with V := u.V }
  | .ldVxMem x => inBoundsRange s.I.toNat (regCount x) = true ∧ u = { s with V := u.V }
  | .rnd .. => u = { s with V := u.V, draws := u.draws }
  | .ldI _ | .addI _ | .ldF _ => u.I.toNat ≤ 0xFFF ∧ u = { s with I := u.I, V := u.V }
  | .drw _ _ n => inBoundsRange s.I.toNat n.toNat = true ∧ u = { s with fb := u.fb, V := u.V }
  | .ldVxK x => u = { s with run := .keyWait x }
  | .ldDtVx _ => u = { s with DT := u.DT }
  | .ldStVx _ => u = { s with ST := u.ST }
  | .ldB x => inBoundsRange s.I.toNat 3 = true ∧
      u = { s with mem := s.mem.writeBytes s.I.toNat (bcdDigits (s.getV x)) }
  | .ldMemVx x => inBoundsRange s.I.toNat (regCount x) = true ∧
      u = { s with mem := s.mem.writeBytes s.I.toNat (s.getRegs 0 (regCount x)) }

/-- A completed instruction leaves the run status alone, unless it is Fx0A. -/
theorem Writes_run {s u : State} {i : Instr} (h : Writes s u i) :
    u.run = s.run ∨ ∃ x, i = .ldVxK x ∧ u.run = .keyWait x := by
  cases i with
  | sys nnn => exact h.elim
  | ldVxK x => exact .inr ⟨x, rfl, by rw [Writes] at h; rw [h]⟩
  | ret => obtain ⟨l, w, -, h⟩ := h; exact .inl (by rw [h])
  | call nnn => exact .inl (by rw [h.2])
  | seImm x nn => exact .inl (by rw [h.2])
  | sneImm x nn => exact .inl (by rw [h.2])
  | seReg x y => exact .inl (by rw [h.2])
  | sneReg x y => exact .inl (by rw [h.2])
  | skp x => exact .inl (by rw [h.2])
  | sknp x => exact .inl (by rw [h.2])
  | ldI nnn => exact .inl (by rw [h.2])
  | addI x => exact .inl (by rw [h.2])
  | ldF x => exact .inl (by rw [h.2])
  | drw x y n => exact .inl (by rw [h.2])
  | ldB x => exact .inl (by rw [h.2])
  | ldMemVx x => exact .inl (by rw [h.2])
  | ldVxMem x => exact .inl (by rw [h.2])
  | _ => exact .inl (by rw [Writes] at h; rw [h])

theorem skipIf_cases (s : State) (taken : Bool) :
    ((s.skipIf taken).pc = s.pc ∨ (s.skipIf taken).pc = s.pc + 2) ∧
      s.skipIf taken = { s with pc := (s.skipIf taken).pc } := by
  cases taken
  · exact ⟨.inl rfl, rfl⟩
  · exact ⟨.inr rfl, rfl⟩

/-- Every instruction raises a fault of its own, or completes with its own status and writes. -/
theorem exec_cases (i : Instr) (s : State) :
    (∃ kind, CanRaise kind i ∧ exec i s = raise kind i s) ∨
      ∃ u, Writes s u i ∧ exec i s = finish (completionStatus i) u := by
  cases i with
  | sys nnn => exact .inl ⟨_, rfl, rfl⟩
  | cls => exact .inr ⟨_, by exact rfl, rfl⟩
  | ret =>
    simp only [exec, execRet]
    cases h : s.pop with
    | none => exact .inl ⟨_, rfl, rfl⟩
    | some p =>
      obtain ⟨l, hl, he⟩ := State.pop_some h
      exact .inr ⟨_, ⟨l, p.1, hl, by rw [he]; rfl⟩, rfl⟩
  | jp nnn => exact .inr ⟨_, by exact rfl, rfl⟩
  | call nnn =>
    simp only [exec, execCall]
    cases h : s.push stackCapacity s.pc with
    | none => exact .inl ⟨_, rfl, rfl⟩
    | some s' =>
      obtain ⟨hl, he⟩ := State.push_some h
      exact .inr ⟨_, ⟨hl, by rw [he]; rfl⟩, rfl⟩
  | seImm x nn => exact .inr ⟨_, skipIf_cases _ _, rfl⟩
  | sneImm x nn => exact .inr ⟨_, skipIf_cases _ _, rfl⟩
  | seReg x y => exact .inr ⟨_, skipIf_cases _ _, rfl⟩
  | sneReg x y => exact .inr ⟨_, skipIf_cases _ _, rfl⟩
  | ldImm x nn => exact .inr ⟨_, by exact rfl, rfl⟩
  | addImm x nn => exact .inr ⟨_, by exact rfl, rfl⟩
  | ldReg x y => exact .inr ⟨_, by exact rfl, rfl⟩
  | orReg x y => exact .inr ⟨_, by exact rfl, rfl⟩
  | andReg x y => exact .inr ⟨_, by exact rfl, rfl⟩
  | xorReg x y => exact .inr ⟨_, by exact rfl, rfl⟩
  | addReg x y => exact .inr ⟨_, writeResultAndFlag_eq _ _ _ _ _, rfl⟩
  | sub x y => exact .inr ⟨_, writeResultAndFlag_eq _ _ _ _ _, rfl⟩
  | shr x y => exact .inr ⟨_, writeResultAndFlag_eq _ _ _ _ _, rfl⟩
  | subn x y => exact .inr ⟨_, writeResultAndFlag_eq _ _ _ _ _, rfl⟩
  | shl x y => exact .inr ⟨_, writeResultAndFlag_eq _ _ _ _ _, rfl⟩
  | ldI nnn =>
    refine .inr ⟨_, ⟨?_, rfl⟩, rfl⟩
    have := nnn.isLt
    simp [zextAddr]; omega
  | jpV0 nnn => exact .inr ⟨_, by exact rfl, rfl⟩
  | rnd x nn => exact .inr ⟨_, by exact rfl, rfl⟩
  | drw x y n =>
    simp only [exec, execDrw]
    cases h : inBoundsRange s.I.toNat n.toNat with
    | true => exact .inr ⟨_, ⟨h, rfl⟩, rfl⟩
    | false => exact .inl ⟨_, rfl, rfl⟩
  | skp x =>
    refine .inr ⟨_, ?_, rfl⟩
    obtain ⟨h1, h2⟩ := skipIf_cases s.draw (keyPressed (Config.pressedKeys s.draws) (s.draw.getV x))
    exact ⟨h1, by rw [h2]; rfl⟩
  | sknp x =>
    refine .inr ⟨_, ?_, rfl⟩
    obtain ⟨h1, h2⟩ := skipIf_cases s.draw (!keyPressed (Config.pressedKeys s.draws) (s.draw.getV x))
    exact ⟨h1, by rw [h2]; rfl⟩
  | ldVxDt x => exact .inr ⟨_, by exact rfl, rfl⟩
  | ldVxK x => exact .inr ⟨_, by exact rfl, rfl⟩
  | ldDtVx x => exact .inr ⟨_, by exact rfl, rfl⟩
  | ldStVx x => exact .inr ⟨_, by exact rfl, rfl⟩
  | addI x =>
    refine .inr ⟨_, ⟨?_, rfl⟩, rfl⟩
    simp; omega
  | ldF x =>
    refine .inr ⟨_, ⟨?_, rfl⟩, rfl⟩
    have h := (s.getV x).isLt
    simp only [fontAddress, fontDigit, fontDigitMask, Config.fontOrigin, Config.fontHeight, State.setI_I,
      BitVec.toNat_ofNat]
    have := Nat.mod_le (0 + (s.getV x).toNat * 5) (2 ^ 16)
    omega
  | ldB x =>
    simp only [exec, execLdB]
    cases h : inBoundsRange s.I.toNat 3 with
    | true => exact .inr ⟨_, ⟨h, rfl⟩, rfl⟩
    | false => exact .inl ⟨_, rfl, rfl⟩
  | ldMemVx x =>
    simp only [exec, execLdMemVx, ldMemVxWith]
    cases h : inBoundsRange s.I.toNat (regCount x) with
    | true => exact .inr ⟨_, ⟨h, rfl⟩, rfl⟩
    | false => exact .inl ⟨_, rfl, rfl⟩
  | ldVxMem x =>
    simp only [exec, execLdVxMem, ldVxMemWith]
    cases h : inBoundsRange s.I.toNat (regCount x) with
    | true => exact .inr ⟨_, ⟨h, State.setRegs_eq _ _ _⟩, rfl⟩
    | false => exact .inl ⟨_, rfl, rfl⟩

end Sys2Proof.Machine
end

