-- ==== Sys2Proof/Laws/Framebuffer.lean ====
section
/-! SUPPORT. What the sprite-blit engine does to a pixel and to the collision flag (spec/44_display.md R181, R182). -/
namespace Sys2Proof.Machine

theorem Framebuffer.get_clear (c : Fin 64) (r : Fin 32) : Framebuffer.get Framebuffer.clear c r = false := by
  simp [Framebuffer.get, Framebuffer.clear]

theorem Framebuffer.get_set (fb : Framebuffer) (c : Fin 64) (r : Fin 32) (b : Bool) (c' : Fin 64) (r' : Fin 32) :
    Framebuffer.get (Framebuffer.set fb c r b) c' r' = if c' = c ∧ r' = r then b else Framebuffer.get fb c' r' := by
  simp only [Framebuffer.get, Framebuffer.set, Fin.getElem_fin, Vector.getElem_set]
  by_cases hc : c' = c
  · subst hc
    by_cases hr : r' = r
    · subst hr; simp
    · have : r.val ≠ r'.val := fun e => hr (Fin.ext e.symm)
      simp [hr, this]
  · have : c.val ≠ c'.val := fun e => hc (Fin.ext e.symm)
    simp [hc, this]

/-- Grids whose pixels agree are equal. -/
theorem Framebuffer.ext {g h : Framebuffer} (e : ∀ c r, Framebuffer.get g c r = Framebuffer.get h c r) : g = h := by
  apply Vector.ext
  intro i hi
  apply Vector.ext
  intro j hj
  exact e ⟨i, hi⟩ ⟨j, hj⟩

/-- One visited target: its pixel is toggled under a 1 bit, every other pixel is kept. -/
theorem blitPixel_get (bit : Bool) (tx ty : Nat) (d : Framebuffer × Bool) (c : Fin 64) (r : Fin 32) :
    Framebuffer.get (blitPixel bit tx ty d).1 c r =
      (Framebuffer.get d.1 c r ^^ (bit && decide (c.val = tx) && decide (r.val = ty))) := by
  unfold blitPixel
  split
  · next h =>
    cases bit
    · simp
    · simp only [↓reduceIte, Framebuffer.get_set, Fin.ext_iff, Bool.true_and]
      by_cases hc : c.val = tx <;> by_cases hr : r.val = ty <;> simp [hc, hr]
      have e1 : c = ⟨tx, h.1⟩ := Fin.ext hc
      have e2 : r = ⟨ty, h.2⟩ := Fin.ext hr
      rw [e1, e2]
  · next h =>
    have : ¬ (c.val = tx ∧ r.val = ty) := fun e => h ⟨e.1 ▸ c.isLt, e.2 ▸ r.isLt⟩
    by_cases hc : c.val = tx
    · have hr : r.val ≠ ty := fun e => this ⟨hc, e⟩
      simp [hr]
    · simp [hc]

/-- One visited target: the flag is raised exactly by a set pixel of the grid under a 1 bit. -/
theorem blitPixel_flag (bit : Bool) (tx ty : Nat) (d : Framebuffer × Bool) :
    (blitPixel bit tx ty d).2 = true ↔
      d.2 = true ∨ ∃ (c : Fin 64) (r : Fin 32), c.val = tx ∧ r.val = ty ∧ bit = true ∧ Framebuffer.get d.1 c r = true := by
  unfold blitPixel
  split
  · next h =>
    simp only [Bool.or_eq_true, Bool.and_eq_true]
    constructor
    · rintro (hd | ⟨hp, hb⟩)
      · exact .inl hd
      · exact .inr ⟨⟨tx, h.1⟩, ⟨ty, h.2⟩, rfl, rfl, hb, hp⟩
    · rintro (hd | ⟨c, r, rfl, rfl, hb, hp⟩)
      · exact .inl hd
      · exact .inr ⟨hp, hb⟩
  · next h =>
    refine ⟨.inl, ?_⟩
    rintro (hd | ⟨c, r, rfl, rfl, -, -⟩)
    · exact hd
    · exact absurd ⟨c.isLt, r.isLt⟩ h

/-- Whether the columns `col` to `col + left - 1` of a sprite row at (xa, ty) set the bit over (c, r). -/
def rowBit (b : Byte) (xa ty col left : Nat) (c r : Nat) : Bool :=
  decide (r = ty) && decide (xa + col ≤ c) && decide (c < xa + col + left) && b.getLsbD (7 - (c - xa))

theorem rowBit_succ (b : Byte) (xa ty col left c r : Nat) :
    rowBit b xa ty col (left + 1) c r =
      ((b.getLsbD (7 - col) && decide (c = xa + col) && decide (r = ty)) ^^ rowBit b xa ty (col + 1) left c r) := by
  unfold rowBit
  by_cases hr : r = ty <;> by_cases hc : c = xa + col
  · subst hc; simp [hr]
  · have e1 : decide (xa + col ≤ c) = decide (xa + (col + 1) ≤ c) := by
      apply decide_eq_decide.2; omega
    have e2 : decide (c < xa + col + (left + 1)) = decide (c < xa + (col + 1) + left) := by
      apply decide_eq_decide.2; omega
    simp [hr, hc, e1, e2]
  · simp [hr]
  · simp [hr]

theorem blitColumns_get (b : Byte) (xa ty col left : Nat) (d : Framebuffer × Bool) (c : Fin 64) (r : Fin 32) :
    Framebuffer.get (blitColumns b xa ty col left d).1 c r =
      (Framebuffer.get d.1 c r ^^ rowBit b xa ty col left c.val r.val) := by
  induction left generalizing col d with
  | zero =>
    have : ¬ (xa + col ≤ c.val ∧ c.val < xa + col) := by omega
    have h0 : rowBit b xa ty col 0 c.val r.val = false := by
      simp only [rowBit, Nat.add_zero, Bool.and_eq_false_imp, Bool.and_eq_true, decide_eq_true_eq]
      rintro ⟨⟨-, h1⟩, h2⟩; exact absurd ⟨h1, h2⟩ this
    simp [blitColumns, h0]
  | succ n ih => rw [blitColumns, ih, blitPixel_get, rowBit_succ, Bool.xor_assoc]

theorem blitColumns_flag (b : Byte) (xa ty col left : Nat) (d : Framebuffer × Bool) :
    (blitColumns b xa ty col left d).2 = true ↔
      d.2 = true ∨ ∃ (c : Fin 64) (r : Fin 32),
        rowBit b xa ty col left c.val r.val = true ∧ Framebuffer.get d.1 c r = true := by
  induction left generalizing col d with
  | zero =>
    refine ⟨.inl, ?_⟩
    rintro (h | ⟨c, r, h, -⟩)
    · exact h
    · simp only [rowBit, Nat.add_zero, Bool.and_eq_true, decide_eq_true_eq] at h
      omega
  | succ n ih =>
    rw [blitColumns, ih, blitPixel_flag, or_assoc]
    refine or_congr_right ?_
    constructor
    · rintro (⟨c, r, hc, hr, hb, hp⟩ | ⟨c, r, hb, hp⟩)
      · refine ⟨c, r, ?_, hp⟩
        have h1 : rowBit b xa ty (col + 1) n c.val r.val = false := by
          simp [rowBit, hc]
        rw [rowBit_succ, h1]; simp [hb, hc, hr]
      · rw [blitPixel_get] at hp
        refine ⟨c, r, ?_, ?_⟩
        · have h1 : c.val ≠ xa + col := by
            simp only [rowBit, Bool.and_eq_true, decide_eq_true_eq] at hb; omega
          simp [rowBit_succ, hb, h1]
        · have h1 : c.val ≠ xa + col := by
            simp only [rowBit, Bool.and_eq_true, decide_eq_true_eq] at hb; omega
          simpa [h1] using hp
    · rintro ⟨c, r, hb, hp⟩
      by_cases hc : c.val = xa + col
      · left
        have h1 : rowBit b xa ty (col + 1) n c.val r.val = false := by
          simp [rowBit, hc]
        rw [rowBit_succ, h1] at hb
        simp only [hc, decide_true, Bool.and_true, Bool.xor_false, Bool.and_eq_true, decide_eq_true_eq] at hb
        exact ⟨c, r, hc, hb.2, hb.1, hp⟩
      · right
        refine ⟨c, r, ?_, ?_⟩
        · simpa [rowBit_succ, hc] using hb
        · rw [blitPixel_get]; simpa [hc] using hp

/-- Whether the rows of a sprite from row `ty` on set the bit over (c, r). -/
def rowsBit (xa ty : Nat) (bytes : List Byte) (c r : Nat) : Bool :=
  decide (ty ≤ r) && rowBit (bytes.getD (r - ty) 0) xa r 0 8 c r

theorem rowsBit_cons (xa ty : Nat) (b : Byte) (bs : List Byte) (c r : Nat) :
    rowsBit xa ty (b :: bs) c r = (rowBit b xa ty 0 8 c r ^^ rowsBit xa (ty + 1) bs c r) := by
  unfold rowsBit
  by_cases hr : r = ty
  · subst hr; simp
  · have hb : rowBit b xa ty 0 8 c r = false := by simp [rowBit, hr]
    by_cases hlt : ty ≤ r
    · have e : r - ty = (r - (ty + 1)) + 1 := by omega
      simp [hb, hlt, e, (by omega : ty + 1 ≤ r)]
    · rw [hb, decide_eq_false hlt, decide_eq_false (by omega : ¬ ty + 1 ≤ r)]; simp

theorem blitRows_get (xa ty : Nat) (bytes : List Byte) (d : Framebuffer × Bool) (c : Fin 64) (r : Fin 32) :
    Framebuffer.get (blitRows xa ty bytes d).1 c r =
      (Framebuffer.get d.1 c r ^^ rowsBit xa ty bytes c.val r.val) := by
  induction bytes generalizing ty d with
  | nil => simp [blitRows, rowsBit, rowBit]
  | cons b bs ih => rw [blitRows, ih, blitColumns_get, rowsBit_cons, Bool.xor_assoc]

theorem blitRows_flag (xa ty : Nat) (bytes : List Byte) (d : Framebuffer × Bool) :
    (blitRows xa ty bytes d).2 = true ↔
      d.2 = true ∨ ∃ (c : Fin 64) (r : Fin 32),
        rowsBit xa ty bytes c.val r.val = true ∧ Framebuffer.get d.1 c r = true := by
  induction bytes generalizing ty d with
  | nil => simp [blitRows, rowsBit, rowBit]
  | cons b bs ih =>
    rw [blitRows, ih, blitColumns_flag, or_assoc]
    refine or_congr_right ?_
    have below : ∀ {c r : Nat}, rowsBit xa (ty + 1) bs c r = true → r ≠ ty := by
      intro c r h; simp only [rowsBit, Bool.and_eq_true, decide_eq_true_eq] at h; omega
    constructor
    · rintro (⟨c, r, hb, hp⟩ | ⟨c, r, hb, hp⟩)
      · refine ⟨c, r, ?_, hp⟩
        have hr : r.val = ty := by
          simp only [rowBit, Bool.and_eq_true, decide_eq_true_eq] at hb; omega
        have h1 : rowsBit xa (ty + 1) bs c.val r.val = false := by
          by_contra h; exact below (by simpa using h) hr
        rw [rowsBit_cons, h1, hb]; rfl
      · have hr := below hb
        have h1 : rowBit b xa ty 0 8 c.val r.val = false := by simp [rowBit, hr]
        refine ⟨c, r, by rw [rowsBit_cons, h1, hb]; rfl, ?_⟩
        rw [blitColumns_get, h1] at hp; simpa using hp
    · rintro ⟨c, r, hb, hp⟩
      rw [rowsBit_cons] at hb
      by_cases h1 : rowBit b xa ty 0 8 c.val r.val = true
      · exact .inl ⟨c, r, h1, hp⟩
      · right
        have h1 : rowBit b xa ty 0 8 c.val r.val = false := by simpa using h1
        refine ⟨c, r, by simpa [h1] using hb, ?_⟩
        rw [blitColumns_get, h1]; simpa using hp

theorem rowsBit_eq_spriteBit (bytes : List Byte) (xa ya : Byte) (c : Fin 64) (r : Fin 32) :
    rowsBit xa.toNat ya.toNat bytes c.val r.val = spriteBit bytes xa ya c r := by
  simp [rowsBit, rowBit, spriteBit, Bool.and_assoc, Bool.and_comm, Bool.and_left_comm]

/-- Every pixel after draw_sprite: XORed with the sprite's bit over it. -/
theorem drawSprite_get (fb : Framebuffer) (xa ya : Byte) (bytes : List Byte) (c : Fin 64) (r : Fin 32) :
    Framebuffer.get (drawSprite fb xa ya bytes).1 c r =
      (Framebuffer.get fb c r ^^ spriteBit bytes xa ya c r) := by
  rw [drawSprite, blitRows_get, rowsBit_eq_spriteBit]

/-- The collision flag of draw_sprite: some sprite bit stands over a pixel that was set before the draw. -/
theorem drawSprite_collided (fb : Framebuffer) (xa ya : Byte) (bytes : List Byte) :
    (drawSprite fb xa ya bytes).2 = true ↔
      ∃ (c : Fin 64) (r : Fin 32), spriteBit bytes xa ya c r = true ∧ Framebuffer.get fb c r = true := by
  rw [drawSprite, blitRows_flag]
  simp [rowsBit_eq_spriteBit]

/-- The same draw twice restores every pixel (spec/44_display.md R183). -/
theorem drawSprite_twice_get (fb : Framebuffer) (xa ya : Byte) (bytes : List Byte) (c : Fin 64) (r : Fin 32) :
    Framebuffer.get (drawSprite (drawSprite fb xa ya bytes).1 xa ya bytes).1 c r = Framebuffer.get fb c r := by
  simp [drawSprite_get]

/-- The collision flag of the second of two equal draws: a 1 bit stands over a pixel that was clear at the start. -/
theorem drawSprite_twice_collided (fb : Framebuffer) (xa ya : Byte) (bytes : List Byte) :
    (drawSprite (drawSprite fb xa ya bytes).1 xa ya bytes).2 = true ↔
      ∃ (c : Fin 64) (r : Fin 32), spriteBit bytes xa ya c r = true ∧ Framebuffer.get fb c r = false := by
  rw [drawSprite_collided]
  refine exists_congr fun c => exists_congr fun r => and_congr_right fun hb => ?_
  simp [drawSprite_get, hb]

/-- R183's sentence on that flag, where it holds: the first draw did not collide (log 16). -/
theorem drawSprite_twice_collided_of_clear {fb : Framebuffer} {xa ya : Byte} {bytes : List Byte}
    (h : (drawSprite fb xa ya bytes).2 = false) :
    (drawSprite (drawSprite fb xa ya bytes).1 xa ya bytes).2 = true ↔
      ∃ (c : Fin 64) (r : Fin 32), spriteBit bytes xa ya c r = true := by
  rw [drawSprite_twice_collided]
  refine exists_congr fun c => exists_congr fun r => and_iff_left_of_imp fun hb => ?_
  by_contra hp
  have hc := (drawSprite_collided fb xa ya bytes).2 ⟨c, r, hb, by simpa using hp⟩
  rw [h] at hc
  cases hc

/-- No draw operation at all has R181's pixels, R182's flag and R183's sentence on the second flag: a single 1 bit over
a pixel that is set at the start parts them (log 16). -/
theorem no_draw_meets_R181_R182_R183 :
    ¬ ∃ draw : Framebuffer → Byte → Byte → List Byte → Framebuffer × Bool,
      (∀ fb xa ya bytes c r, Framebuffer.get (draw fb xa ya bytes).1 c r =
        (Framebuffer.get fb c r ^^ spriteBit bytes xa ya c r)) ∧
      (∀ fb xa ya bytes, (draw fb xa ya bytes).2 = true ↔
        ∃ c r, spriteBit bytes xa ya c r = true ∧ Framebuffer.get fb c r = true) ∧
      (∀ fb xa ya bytes, (draw (draw fb xa ya bytes).1 xa ya bytes).2 = true ↔
        ∃ c r, spriteBit bytes xa ya c r = true) := by
  rintro ⟨draw, pixels, flag, second⟩
  let full : Framebuffer := Vector.replicate 64 (Vector.replicate 32 true)
  have hfull (c : Fin 64) (r : Fin 32) : Framebuffer.get full c r = true := by simp [full, Framebuffer.get]
  obtain ⟨c, r, hb, hp⟩ := (flag _ _ _ _).1 ((second full 0 0 [0x80#8]).2 ⟨0, 0, by decide⟩)
  rw [pixels, hfull, hb] at hp
  cases hp

end Sys2Proof.Machine
end

