-- ==== Sys2Proof/Laws/PerInstr.lean ====
section
/-! SUPPORT. Per instruction: the encoder writes the fixed bits of the instruction's row of the opcode table
(spec/30_encoding.md R74). -/
namespace Sys2Proof.Laws.EncodeFixedBits

/-- Under the row's mask, the opcode of `i` is the row's match. -/
def Statement (i : Instr) : Prop := encode i &&& tableMask i = tableMatch i

/-- A mask of the top nibble keeps it and clears the rest. -/
theorem keep_top (a : Nibble) (z : BitVec 12) : (a ++ z : Word) &&& 0xF000#16 = a ++ 0#12 := by
  have h : (0xF000#16 : Word) = (BitVec.allOnes 4 ++ 0#12 : Word) := by decide
  rw [h, BitVec.and_append]; simp only [BitVec.and_allOnes, BitVec.and_zero]

/-- The same for a register index and a byte after the top nibble. -/
theorem keep_top_xnn (a : Nibble) (x : RegId) (nn : Byte) : (a ++ x ++ nn : Word) &&& 0xF000#16 = a ++ 0#4 ++ 0#8 := by
  have h : (0xF000#16 : Word) = (BitVec.allOnes 4 ++ 0#4 ++ 0#8 : Word) := by decide
  rw [h, BitVec.and_append, BitVec.and_append]; simp only [BitVec.and_allOnes, BitVec.and_zero]

/-- A mask of the top nibble clears both register indexes and the low nibble. -/
theorem keep_top_xyn (a : Nibble) (x y : RegId) (n : Nibble) :
    (a ++ x ++ y ++ n : Word) &&& 0xF000#16 = a ++ 0#4 ++ 0#4 ++ 0#4 := by
  have h : (0xF000#16 : Word) = (BitVec.allOnes 4 ++ 0#4 ++ 0#4 ++ 0#4 : Word) := by decide
  rw [h, BitVec.and_append, BitVec.and_append, BitVec.and_append]; simp only [BitVec.and_allOnes, BitVec.and_zero]

/-- A mask of the outer nibbles clears both register indexes. -/
theorem keep_outer (a : Nibble) (x y : RegId) (d : Nibble) :
    (a ++ x ++ y ++ d : Word) &&& 0xF00F#16 = a ++ 0#4 ++ 0#4 ++ d := by
  have h : (0xF00F#16 : Word) = (BitVec.allOnes 4 ++ 0#4 ++ 0#4 ++ BitVec.allOnes 4 : Word) := by decide
  rw [h, BitVec.and_append, BitVec.and_append, BitVec.and_append]; simp only [BitVec.and_allOnes, BitVec.and_zero]

/-- A mask of the top nibble and the low byte clears the register index. -/
theorem keep_top_nn (a : Nibble) (x : RegId) (d : Byte) :
    (a ++ x ++ d : Word) &&& 0xF0FF#16 = a ++ 0#4 ++ d := by
  have h : (0xF0FF#16 : Word) = (BitVec.allOnes 4 ++ 0#4 ++ BitVec.allOnes 8 : Word) := by decide
  rw [h, BitVec.and_append, BitVec.and_append]; simp only [BitVec.and_allOnes, BitVec.and_zero]

theorem sys (nnn : Addr) : Statement (.sys nnn) :=
  (keep_top _ _).trans rfl

theorem cls : Statement (.cls) := by show _ = _; decide

theorem ret : Statement (.ret) := by show _ = _; decide

theorem jp (nnn : Addr) : Statement (.jp nnn) :=
  (keep_top _ _).trans rfl

theorem call (nnn : Addr) : Statement (.call nnn) :=
  (keep_top _ _).trans rfl

theorem seImm (x : RegId) (nn : Byte) : Statement (.seImm x nn) :=
  (keep_top_xnn _ _ _).trans rfl

theorem sneImm (x : RegId) (nn : Byte) : Statement (.sneImm x nn) :=
  (keep_top_xnn _ _ _).trans rfl

theorem seReg (x y : RegId) : Statement (.seReg x y) :=
  (keep_outer _ _ _ _).trans rfl

theorem ldImm (x : RegId) (nn : Byte) : Statement (.ldImm x nn) :=
  (keep_top_xnn _ _ _).trans rfl

theorem addImm (x : RegId) (nn : Byte) : Statement (.addImm x nn) :=
  (keep_top_xnn _ _ _).trans rfl

theorem ldReg (x y : RegId) : Statement (.ldReg x y) :=
  (keep_outer _ _ _ _).trans rfl

theorem orReg (x y : RegId) : Statement (.orReg x y) :=
  (keep_outer _ _ _ _).trans rfl

theorem andReg (x y : RegId) : Statement (.andReg x y) :=
  (keep_outer _ _ _ _).trans rfl

theorem xorReg (x y : RegId) : Statement (.xorReg x y) :=
  (keep_outer _ _ _ _).trans rfl

theorem addReg (x y : RegId) : Statement (.addReg x y) :=
  (keep_outer _ _ _ _).trans rfl

theorem sub (x y : RegId) : Statement (.sub x y) :=
  (keep_outer _ _ _ _).trans rfl

theorem shr (x y : RegId) : Statement (.shr x y) :=
  (keep_outer _ _ _ _).trans rfl

theorem subn (x y : RegId) : Statement (.subn x y) :=
  (keep_outer _ _ _ _).trans rfl

theorem shl (x y : RegId) : Statement (.shl x y) :=
  (keep_outer _ _ _ _).trans rfl

theorem sneReg (x y : RegId) : Statement (.sneReg x y) :=
  (keep_outer _ _ _ _).trans rfl

theorem ldI (nnn : Addr) : Statement (.ldI nnn) :=
  (keep_top _ _).trans rfl

theorem jpV0 (nnn : Addr) : Statement (.jpV0 nnn) :=
  (keep_top _ _).trans rfl

theorem rnd (x : RegId) (nn : Byte) : Statement (.rnd x nn) :=
  (keep_top_xnn _ _ _).trans rfl

theorem drw (x y : RegId) (n : Nibble) : Statement (.drw x y n) :=
  (keep_top_xyn _ _ _ _).trans rfl

theorem skp (x : RegId) : Statement (.skp x) :=
  (keep_top_nn _ _ _).trans rfl

theorem sknp (x : RegId) : Statement (.sknp x) :=
  (keep_top_nn _ _ _).trans rfl

theorem ldVxDt (x : RegId) : Statement (.ldVxDt x) :=
  (keep_top_nn _ _ _).trans rfl

theorem ldVxK (x : RegId) : Statement (.ldVxK x) :=
  (keep_top_nn _ _ _).trans rfl

theorem ldDtVx (x : RegId) : Statement (.ldDtVx x) :=
  (keep_top_nn _ _ _).trans rfl

theorem ldStVx (x : RegId) : Statement (.ldStVx x) :=
  (keep_top_nn _ _ _).trans rfl

theorem addI (x : RegId) : Statement (.addI x) :=
  (keep_top_nn _ _ _).trans rfl

theorem ldF (x : RegId) : Statement (.ldF x) :=
  (keep_top_nn _ _ _).trans rfl

theorem ldB (x : RegId) : Statement (.ldB x) :=
  (keep_top_nn _ _ _).trans rfl

theorem ldMemVx (x : RegId) : Statement (.ldMemVx x) :=
  (keep_top_nn _ _ _).trans rfl

theorem ldVxMem (x : RegId) : Statement (.ldVxMem x) :=
  (keep_top_nn _ _ _).trans rfl

end Sys2Proof.Laws.EncodeFixedBits
end

