-- ==== Sys2Proof/Laws/Step.lean ====
section
/-! SUPPORT. What a step can do, said once: every invariant proof starts from these cases. -/
namespace Sys2Proof.Machine

theorem decode_fetchBytes (s : State) :
    decode s.fetchBytes =
      match decodeWord s.fetchOpcode with
      | .ok i => .ok (i, [])
      | .error e => .error e := rfl

/-- Decode and execute: one instruction's meaning, or the InvalidOpcode fault. -/
theorem runFetched_cases (s : State) :
    (∃ i, decodeWord s.fetchOpcode = .ok i ∧ runFetched s = exec i s.advance) ∨
    (∃ e, decodeWord s.fetchOpcode = .error e ∧
      runFetched s = takeFault .invalidOpcode s.fetchOpcode s.advance) := by
  unfold runFetched
  rw [decode_fetchBytes]
  cases h : decodeWord s.fetchOpcode with
  | ok i => exact .inl ⟨i, rfl, rfl⟩
  | error e => exact .inr ⟨e, rfl, rfl⟩

/-- The event Step, when it answers a next state: the same fault again, a halt, an instruction, or InvalidOpcode. -/
theorem coreStep_cases {s t : State} (h : coreStep s = .next t) :
    (∃ kind op f, s.run = .faulted kind op f ∧ t = s.setStatus (.fault kind op f)) ∨
    (s.run = .running ∧ inBoundsFetch s.pc = false ∧ t = s.setStatus .halt) ∨
    (∃ i, s.run = .running ∧ inBoundsFetch s.pc = true ∧ decodeWord s.fetchOpcode = .ok i ∧
      exec i s.advance = .next t) ∨
    (∃ e, s.run = .running ∧ inBoundsFetch s.pc = true ∧ decodeWord s.fetchOpcode = .error e ∧
      takeFault .invalidOpcode s.fetchOpcode s.advance = .next t) := by
  unfold coreStep at h
  split at h
  · next kind op f hr => exact .inl ⟨kind, op, f, hr, by simpa [finish] using h.symm⟩
  · cases h
  · next hr =>
    split at h
    · next hb =>
      rcases runFetched_cases s with ⟨i, hd, he⟩ | ⟨e, hd, he⟩
      · exact .inr (.inr (.inl ⟨i, hr, hb, hd, he ▸ h⟩))
      · exact .inr (.inr (.inr ⟨e, hr, hb, hd, he ▸ h⟩))
    · next hb => exact .inr (.inl ⟨hr, by simpa using hb, by simpa [finish] using h.symm⟩)

/-- When the host lists an event, the step delivers it. -/
theorem step_of_listed {s : State} {e : HostEvent} {es : List HostEvent} (h : s.events = e :: es) :
    step s = deliver e (s.setEvents es) := by
  unfold step hostMove hostMoveWith nextEventWith
  rw [h]

/-- When the host lists nothing and chooses `choice`, its move delivers the event chosen. -/
theorem hostMoveWith_of_unlisted {s : State} (choice : Option Nibble) (h : s.events = []) :
    hostMoveWith choice s = deliver (chosenEvent s.run choice) s.draw := by
  unfold hostMoveWith nextEventWith
  rw [h]

/-- The state a step delivers its event to: only the model's own `events` and `draws` may differ from `s`. -/
theorem nextEvent_state (s : State) :
    (∃ e es, s.events = e :: es ∧ nextEvent s = (e, s.setEvents es)) ∨
    (s.events = [] ∧ nextEvent s = (chosenEvent s.run (Config.hostChoice s.draws), s.draw)) := by
  unfold nextEvent nextEventWith
  cases he : s.events with
  | cons e es => exact .inl ⟨e, es, rfl, rfl⟩
  | nil => exact .inr ⟨rfl, rfl⟩

/-- A property of the first state that every step keeps holds all along a run. -/
theorem IsRun.keeps {r : Nat → State} {P : State → Prop} (hr : IsRun r) (h0 : P (r 0))
    (hs : ∀ s t, P s → step s = .next t → P t) (n : Nat) : P (r n) := by
  induction n with
  | zero => exact h0
  | succ n ih => exact hs _ _ ih (hr n)

/-- A step that answers a next state delivered a Step, a Tick or a KeyPress to a state that differs from `s` in
nothing but the model's own `events` and `draws`. -/
theorem step_cases {s t : State} (h : step s = .next t) :
    ∃ s', s' = { s with events := s'.events, draws := s'.draws } ∧
      (coreStep s' = .next t ∨ t = tick s' ∨ ∃ k, keyPress k s' = .next t) := by
  refine ⟨(nextEvent s).2, ?_, ?_⟩
  · rcases nextEvent_state s with ⟨e, es, -, hn⟩ | ⟨-, hn⟩ <;> rw [hn] <;> rfl
  · change deliver (nextEvent s).1 (nextEvent s).2 = .next t at h
    unfold deliver at h
    split at h
    · exact .inl h
    · exact .inr (.inl (by simpa using h.symm))
    · next k _ => exact .inr (.inr ⟨k, h⟩)

/-- The same cases told of the state the step starts from: in each, the step works on a state `s'` that differs from
`s` in the model's own `events` and `draws` alone. -/
theorem step_next_cases {s t : State} (h : step s = .next t) :
    ∃ s', s' = { s with events := s'.events, draws := s'.draws } ∧
      ((∃ kind op f, s.run = .faulted kind op f ∧ t = s'.setStatus (.fault kind op f)) ∨
       (s.run = .running ∧ inBoundsFetch s.pc = false ∧ t = s'.setStatus .halt) ∨
       (∃ i, s.run = .running ∧ inBoundsFetch s.pc = true ∧ decodeWord s.fetchOpcode = .ok i ∧
          exec i s'.advance = .next t) ∨
       (∃ e, s.run = .running ∧ inBoundsFetch s.pc = true ∧ decodeWord s.fetchOpcode = .error e ∧
          takeFault .invalidOpcode s.fetchOpcode s'.advance = .next t) ∨
       t = tick s' ∨
       ∃ (k : Nibble) (x : RegId), s.run = .keyWait x ∧
          t = ((s'.setV x (k.setWidth 8)).setRun .running).setStatus .ok) := by
  obtain ⟨s', e, h⟩ := step_cases h
  refine ⟨s', e, ?_⟩
  have er : s'.run = s.run := by rw [e]
  have ep : s'.pc = s.pc := by rw [e]
  have eo : s'.fetchOpcode = s.fetchOpcode := by rw [e]; rfl
  rcases h with h | h | ⟨k, h⟩
  · have h := coreStep_cases h
    rw [er, ep, eo] at h
    rcases h with h | h | h | h
    · exact .inl h
    · exact .inr (.inl h)
    · exact .inr (.inr (.inl h))
    · exact .inr (.inr (.inr (.inl h)))
  · exact .inr (.inr (.inr (.inr (.inl h))))
  · obtain ⟨x, hx, ht⟩ := keyPress_next h
    exact .inr (.inr (.inr (.inr (.inr ⟨k, x, er ▸ hx, ht⟩))))

end Sys2Proof.Machine
end

