-- ==== Sys2Proof/Tests/Slice0.lean ====
section
/-! SUPPORT. Tests of one step or one instruction on small states, the decoder's words written out from
spec/30_encoding.md R74, the smoke test of WellFormed, and a witness for the hypotheses of every statement. The
expected results are those of spec/95_test_vectors.md (the vector's number stands in the name's comment). -/
namespace Sys2Proof.Machine.Tests

/-- The machine just past the fetch at 0x200. -/
def base : State := State.reset.setPc 0x202#16

/-- `base` with V0 and V1. -/
def withV01 (a b : Byte) : State := (base.setV 0x0#4 a).setV 0x1#4 b

/-- `base` with I, and bytes in memory at I. -/
def withBytes (i : Word) (bs : List Byte) : State := (base.setI i).setMem (base.mem.writeBytes i.toNat bs)

/-- Reset with the opcode at 0x200. -/
def placed (w : Nat) : State := State.reset.withFetchWord 16 w

/-- A next state that passes the check. -/
def next (r : Result) (p : State → Bool) : Bool :=
  match r with
  | .next t => p t
  | .fault _ => false
  | .refused _ => false

/-- The record of a fault raised at 0x200, with pc past it. -/
def faultedAt200 (kind : FaultKind) (op : Word) (t : State) : Bool :=
  t.run == .faulted kind op 0x200#16 && t.pc == 0x202#16 && t.status == some (.fault kind op 0x200#16)

/-! ### WellFormed refuses an ill-formed term for each check (R73) -/

theorem test_wellFormed_refuses_cls_as_sys : (Instr.sys 0x0E0#12).wellFormed = false := by decide
theorem test_wellFormed_refuses_ret_as_sys : (Instr.sys 0x0EE#12).wellFormed = false := by decide
theorem test_wellFormed_accepts_other_sys : (Instr.sys 0x0E1#12).wellFormed = true := by decide

/-! ### Decoding: every constructor, its word written out bit by bit from the pattern of R74 -/

theorem test_decode_family0 :
    decodeWord 0b0000000100100011#16 = .ok (.sys 0x123#12) ∧ decodeWord 0b0000000011100000#16 = .ok .cls ∧
      decodeWord 0b0000000011101110#16 = .ok .ret := by decide

theorem test_decode_jumps :
    decodeWord 0b0001101010111100#16 = .ok (.jp 0xABC#12) ∧ decodeWord 0b0010001100000000#16 = .ok (.call 0x300#12) ∧
      decodeWord 0b1011001100000001#16 = .ok (.jpV0 0x301#12) := by decide

theorem test_decode_skips :
    decodeWord 0b0011001101000010#16 = .ok (.seImm 0x3#4 0x42#8) ∧
      decodeWord 0b0100001101000001#16 = .ok (.sneImm 0x3#4 0x41#8) ∧
      decodeWord 0b0101000100100000#16 = .ok (.seReg 0x1#4 0x2#4) ∧
      decodeWord 0b1001000100100000#16 = .ok (.sneReg 0x1#4 0x2#4) := by decide

theorem test_decode_immediates :
    decodeWord 0b0110101001011011#16 = .ok (.ldImm 0xA#4 0x5B#8) ∧
      decodeWord 0b0111000011111111#16 = .ok (.addImm 0x0#4 0xFF#8) ∧
      decodeWord 0b1010001100000000#16 = .ok (.ldI 0x300#12) ∧
      decodeWord 0b1100001100001111#16 = .ok (.rnd 0x3#4 0x0F#8) ∧
      decodeWord 0b1101101010110101#16 = .ok (.drw 0xA#4 0xB#4 0x5#4) := by decide

theorem test_decode_family8 :
    decodeWord 0b1000000100100000#16 = .ok (.ldReg 0x1#4 0x2#4) ∧
      decodeWord 0b1000000100100001#16 = .ok (.orReg 0x1#4 0x2#4) ∧
      decodeWord 0b1000000100100010#16 = .ok (.andReg 0x1#4 0x2#4) ∧
      decodeWord 0b1000000100100011#16 = .ok (.xorReg 0x1#4 0x2#4) ∧
      decodeWord 0b1000000100100100#16 = .ok (.addReg 0x1#4 0x2#4) ∧
      decodeWord 0b1000000100100101#16 = .ok (.sub 0x1#4 0x2#4) ∧
      decodeWord 0b1000000100100110#16 = .ok (.shr 0x1#4 0x2#4) ∧
      decodeWord 0b1000000100100111#16 = .ok (.subn 0x1#4 0x2#4) ∧
      decodeWord 0b1000000100101110#16 = .ok (.shl 0x1#4 0x2#4) := by decide

theorem test_decode_familyE :
    decodeWord 0b1110010110011110#16 = .ok (.skp 0x5#4) ∧
      decodeWord 0b1110010110100001#16 = .ok (.sknp 0x5#4) := by decide

theorem test_decode_familyF :
    decodeWord 0b1111001100000111#16 = .ok (.ldVxDt 0x3#4) ∧ decodeWord 0b1111001000001010#16 = .ok (.ldVxK 0x2#4) ∧
      decodeWord 0b1111000100010101#16 = .ok (.ldDtVx 0x1#4) ∧
      decodeWord 0b1111000100011000#16 = .ok (.ldStVx 0x1#4) ∧
      decodeWord 0b1111001000011110#16 = .ok (.addI 0x2#4) ∧ decodeWord 0b1111010000101001#16 = .ok (.ldF 0x4#4) ∧
      decodeWord 0b1111000000110011#16 = .ok (.ldB 0x0#4) ∧
      decodeWord 0b1111001001010101#16 = .ok (.ldMemVx 0x2#4) ∧
      decodeWord 0b1111001001100101#16 = .ok (.ldVxMem 0x2#4) := by decide

/-- 2.1: words that match no row are rejected by the name of their family. -/
theorem test_decode_rejects :
    decodeWord 0x5121#16 = .error (.invalid 0x5#4 0x5121#16) ∧ decodeWord 0x800D#16 = .error (.invalid 0x8#4 0x800D#16) ∧
      decodeWord 0x9121#16 = .error (.invalid 0x9#4 0x9121#16) ∧ decodeWord 0xE0A2#16 = .error (.invalid 0xE#4 0xE0A2#16) ∧
      decodeWord 0xF00B#16 = .error (.invalid 0xF#4 0xF00B#16) ∧ decode [0x12#8] = .error .truncated := by decide

/-- T6: the first byte is the high one. -/
theorem test_decode_bytes_bigEndian : decode [0x12#8, 0x34#8, 0x56#8] = .ok (.jp 0x234#12, [0x56#8]) := by decide

/-- The host's numbering of a row gives the row's instruction. -/
theorem test_decodeTableWord : decodeTableWord 16 0xD125 = some (.drw 0x1#4 0x2#4 0x5#4) := by decide

/-! ### The step cycle -/

/-- T1: a fetch at 0xFFE is legal. -/
theorem test_step_at_top :
    next (step ((State.reset.setPc 0xFFE#16).withFetchWord 16 0x6007))
      (fun t => t.getV 0x0#4 == 0x07#8 && t.pc == 0x1000#16 && t.status == some .ok) = true := by decide

/-- T3: pc = 0xFFF halts. -/
theorem test_step_halts :
    next (step ((State.reset.setPc 0xFFF#16).setEvents [.step])) (fun t => t.status == some .halt && t.pc == 0xFFF#16) = true := by decide

/-- T5: an odd fetch is legal. -/
theorem test_step_odd_pc :
    next (step ((State.reset.setPc 0x201#16).withFetchWord 16 0x602A))
      (fun t => t.getV 0x0#4 == 0x2A#8 && t.pc == 0x203#16) = true := by decide

/-- 2.1: 0x0000 at reset is SYS, and an INVALID word faults the same way. -/
theorem test_step_zero_faults : next (step (State.reset.setEvents [.step])) (faultedAt200 .invalidOpcode 0x0000#16) = true := by decide
theorem test_step_invalid_faults : next (step (placed 0x5121)) (faultedAt200 .invalidOpcode 0x5121#16) = true := by
  decide

/-- P4: a faulted core repeats its fault. -/
theorem test_step_faulted_repeats :
    next (step ((placed 0x6005).setRun (.faulted .stackUnderflow 0x00EE#16 0x200#16)))
      (fun t => t.status == some (.fault .stackUnderflow 0x00EE#16 0x200#16) && t.getV 0x0#4 == 0x00#8) = true := by
  decide

/-! ### One or two vectors per instruction -/

/-- The example of R121. -/
theorem test_sys : next (exec (.sys 0x123#12) base) (faultedAt200 .invalidOpcode 0x0123#16) = true := by decide

/-- F9, and 2.1. -/
theorem test_ret : next (exec .ret (base.setStack [0x202#16, 0x402#16]))
    (fun t => t.pc == 0x402#16 && t.stack == [0x202#16]) = true := by decide
theorem test_ret_empty : next (exec .ret base) (faultedAt200 .stackUnderflow 0x00EE#16) = true := by decide

/-- F1. -/
theorem test_jp : next (exec (.jp 0xABC#12) base) (fun t => t.pc == 0xABC#16) = true := by decide

/-- F4, F5. -/
theorem test_call : next (exec (.call 0x300#12) base) (fun t => t.stack == [0x202#16] && t.pc == 0x300#16) = true := by
  decide
theorem test_call_full : next (exec (.call 0x300#12) (base.setStack (List.replicate 16 0x0#16)))
    (faultedAt200 .stackOverflow 0x2300#16) = true := by decide

/-- F10, F12. -/
theorem test_seImm : next (exec (.seImm 0x3#4 0x42#8) (base.setV 0x3#4 0x42#8)) (fun t => t.pc == 0x204#16) = true := by
  decide
theorem test_sneImm : next (exec (.sneImm 0x3#4 0x42#8) (base.setV 0x3#4 0x42#8)) (fun t => t.pc == 0x202#16) = true := by
  decide

/-- F17, F19. -/
theorem test_seReg : next (exec (.seReg 0x0#4 0x1#4) (withV01 7 8)) (fun t => t.pc == 0x202#16) = true := by decide
theorem test_sneReg : next (exec (.sneReg 0x0#4 0x1#4) (withV01 7 8)) (fun t => t.pc == 0x204#16) = true := by decide

/-- F24. -/
theorem test_jpV0 : next (exec (.jpV0 0xFFF#12) (withV01 0xFF 0)) (fun t => t.pc == 0x10FE#16) = true := by decide

/-- A2, A3. -/
theorem test_ldImm : next (exec (.ldImm 0xF#4 0x07#8) base) (fun t => t.getV 0xF#4 == 0x07#8) = true := by decide
theorem test_addImm : next (exec (.addImm 0x0#4 0x01#8) (withV01 0xFF 0))
    (fun t => t.getV 0x0#4 == 0x00#8 && t.getV 0xF#4 == 0x00#8) = true := by decide

/-- A6 to A9. -/
theorem test_ldReg : next (exec (.ldReg 0x0#4 0x1#4) (withV01 0 0x3C)) (fun t => t.getV 0x0#4 == 0x3C#8) = true := by
  decide
theorem test_orReg : next (exec (.orReg 0x0#4 0x1#4) ((withV01 0x0F 0xF0).setV 0xF#4 0x05#8))
    (fun t => t.getV 0x0#4 == 0xFF#8 && t.getV 0xF#4 == 0x05#8) = true := by decide
theorem test_andReg : next (exec (.andReg 0x0#4 0x1#4) (withV01 0x3C 0x0F)) (fun t => t.getV 0x0#4 == 0x0C#8) = true := by
  decide
theorem test_xorReg : next (exec (.xorReg 0x0#4 0x1#4) (withV01 0x3C 0x0F)) (fun t => t.getV 0x0#4 == 0x33#8) = true := by
  decide

/-- A11, A13 (the old VF is the addend). -/
theorem test_addReg : next (exec (.addReg 0x0#4 0x1#4) (withV01 0x80 0x80))
    (fun t => t.getV 0x0#4 == 0x00#8 && t.getV 0xF#4 == 0x01#8) = true := by decide
theorem test_addReg_vf : next (exec (.addReg 0x0#4 0xF#4) ((withV01 0x0A 0).setV 0xF#4 0x05#8))
    (fun t => t.getV 0x0#4 == 0x0F#8 && t.getV 0xF#4 == 0x00#8) = true := by decide

/-- A15: x = F under both orders. -/
theorem test_addReg_orders :
    (next (addRegWith .flagLast 0xF#4 0x1#4 ((withV01 0 2).setV 0xF#4 0x10#8)) (fun t => t.getV 0xF#4 == 0x00#8) &&
      next (addRegWith .resultLast 0xF#4 0x1#4 ((withV01 0 2).setV 0xF#4 0x10#8)) (fun t => t.getV 0xF#4 == 0x12#8)) =
    true := by decide

/-- A16, A17. -/
theorem test_sub_equal : next (exec (.sub 0x0#4 0x1#4) (withV01 3 3))
    (fun t => t.getV 0x0#4 == 0x00#8 && t.getV 0xF#4 == 0x01#8) = true := by decide
theorem test_sub_borrow : next (exec (.sub 0x0#4 0x1#4) (withV01 0 1))
    (fun t => t.getV 0x0#4 == 0xFF#8 && t.getV 0xF#4 == 0x00#8) = true := by decide

/-- A27. -/
theorem test_subn : next (exec (.subn 0x0#4 0x1#4) (withV01 3 5))
    (fun t => t.getV 0x0#4 == 0x02#8 && t.getV 0xF#4 == 0x01#8) = true := by decide

/-- A24: exec shifts Vx; SHIFT_SOURCE = VY shifts Vy. -/
theorem test_shr : next (exec (.shr 0x0#4 0x1#4) (withV01 4 3))
    (fun t => t.getV 0x0#4 == 0x02#8 && t.getV 0xF#4 == 0x00#8) = true := by decide
theorem test_shr_vy : next (shrWith .vy .flagLast 0x0#4 0x1#4 (withV01 4 3))
    (fun t => t.getV 0x0#4 == 0x01#8 && t.getV 0xF#4 == 0x01#8) = true := by decide

/-- A30, A34 under VY. -/
theorem test_shl : next (exec (.shl 0x0#4 0x0#4) (withV01 0x81 0))
    (fun t => t.getV 0x0#4 == 0x02#8 && t.getV 0xF#4 == 0x01#8) = true := by decide
theorem test_shl_vy : next (shlWith .vy .flagLast 0x0#4 0x1#4 (withV01 1 0x80))
    (fun t => t.getV 0x0#4 == 0x00#8 && t.getV 0xF#4 == 0x01#8) = true := by decide

/-- A35. -/
theorem test_rnd : next (rndWith 0xA7#8 0x3#4 0x0F#8 base) (fun t => t.getV 0x3#4 == 0x07#8) = true := by decide

/-- M2; M4, M7. -/
theorem test_ldI : next (exec (.ldI 0xFFF#12) base) (fun t => t.I == 0xFFF#16) = true := by decide
theorem test_addI_overflow : next (exec (.addI 0x1#4) ((withV01 0 1).setI 0xFFF#16))
    (fun t => t.I == 0x000#16 && t.getV 0xF#4 == 0x01#8) = true := by decide
theorem test_addI_vf : next (exec (.addI 0xF#4) ((base.setV 0xF#4 0x20#8).setI 0xFF0#16))
    (fun t => t.I == 0x010#16 && t.getV 0xF#4 == 0x01#8) = true := by decide

/-- M10 under both masks. -/
theorem test_ldF : next (exec (.ldF 0x0#4) (withV01 0xFF 0)) (fun t => t.I == 0x4FB#16) = true := by decide
theorem test_ldF_lowNibble : next (ldFWith .lowNibble 0x0#4 (withV01 0xFF 0)) (fun t => t.I == 0x04B#16) = true := by
  decide

/-- S13, M16. -/
theorem test_ldB : next (exec (.ldB 0x0#4) ((withV01 0x9C 0).setI 0x300#16))
    (fun t => t.mem.readBytes 0x300 3 == [0x01#8, 0x05#8, 0x06#8]) = true := by decide
theorem test_ldB_past_top : next (exec (.ldB 0x0#4) ((withV01 1 0).setI 0xFFE#16))
    (fun t => faultedAt200 .memoryBounds 0xF033#16 t && t.mem == []) = true := by decide

/-- M17 (the middle byte of it), M19. -/
theorem test_ldMemVx : next (exec (.ldMemVx 0x1#4) ((withV01 1 2).setI 0x300#16))
    (fun t => t.mem == [(0x300, 0x01#8), (0x301, 0x02#8)] && t.I == 0x300#16) = true := by decide
theorem test_ldMemVx_past_top : next (exec (.ldMemVx 0x1#4) ((withV01 1 2).setI 0xFFF#16))
    (fun t => faultedAt200 .memoryBounds 0xF155#16 t && t.mem == []) = true := by decide

/-- M21, and M18 with LOADSTORE_INCREMENT_I. -/
theorem test_ldVxMem : next (exec (.ldVxMem 0x1#4) (withBytes 0x300#16 [1, 5, 6]))
    (fun t => t.getV 0x0#4 == 0x01#8 && t.getV 0x1#4 == 0x05#8 && t.getV 0x2#4 == 0x00#8) = true := by decide
theorem test_increment_wraps : next (ldMemVxWith true 0x0#4 ((withV01 0x77 0).setI 0xFFF#16))
    (fun t => t.I == 0x000#16 && t.readByte 0xFFF == 0x77#8) = true := by decide

/-- X1. -/
theorem test_cls : next (exec .cls (base.setFb (Framebuffer.set base.fb 3 4 true)))
    (fun t => t.pixel 3 4 == false && t.status == some .redraw) = true := by decide

/-- X6: the sprite is clipped at the right edge, not wrapped. -/
theorem test_drw_clips : next (exec (.drw 0x0#4 0x1#4 0x1#4) ((withBytes 0x300#16 [0xFF#8]).setV 0x0#4 62))
    (fun t => t.pixel 61 0 == false && t.pixel 62 0 && t.pixel 63 0 && t.pixel 0 0 == false &&
      t.getV 0xF#4 == 0x00#8) = true := by decide

/-- X4: a set pixel under a 1 bit is cleared and reported. -/
theorem test_drw_collides :
    next (exec (.drw 0x0#4 0x1#4 0x1#4)
        ((withBytes 0x300#16 [0x80#8]).setFb (Framebuffer.set base.fb 0 0 true)))
      (fun t => t.pixel 0 0 == false && t.getV 0xF#4 == 0x01#8 && t.status == some .redraw) = true := by decide

/-- K1, K5; K3, K6. -/
theorem test_skp : (next (skpWith 0x0400#16 0x5#4 (base.setV 0x5#4 0x0A#8)) (fun t => t.pc == 0x204#16) &&
    next (skpWith 0xFFFF#16 0x5#4 (base.setV 0x5#4 0x10#8)) (fun t => t.pc == 0x202#16)) = true := by decide
theorem test_sknp : (next (sknpWith 0x0000#16 0x5#4 (base.setV 0x5#4 0x0A#8)) (fun t => t.pc == 0x204#16) &&
    next (sknpWith 0xFFFF#16 0x5#4 (base.setV 0x5#4 0x10#8)) (fun t => t.pc == 0x204#16)) = true := by decide

/-- K7, K8, K9. -/
theorem test_ldVxDt : next (exec (.ldVxDt 0x3#4) (base.setDT 0x3C#8))
    (fun t => t.getV 0x3#4 == 0x3C#8 && t.DT == 0x3C#8) = true := by decide
theorem test_ldDtVx : next (exec (.ldDtVx 0x1#4) (withV01 0 0x3C)) (fun t => t.DT == 0x3C#8) = true := by decide
theorem test_ldStVx : next (exec (.ldStVx 0x1#4) (withV01 0 2)) (fun t => t.ST == 0x02#8 && t.soundOn) = true := by
  decide

/-- K14, K15. -/
theorem test_ldVxK : next (step (placed 0xF20A))
    (fun t => t.run == .keyWait 0x2#4 && t.pc == 0x202#16 && t.status == some .blocked) = true := by decide
theorem test_keyPress : next (keyPress 0xF#4 (base.setRun (.keyWait 0x2#4)))
    (fun t => t.getV 0x2#4 == 0x0F#8 && t.run == .running && t.status == some .ok) = true := by decide

/-- K11; K18: a Tick is enabled in Faulted. -/
theorem test_tick : (tick ((base.setDT 2).setST 1)).DT = 1 ∧ (tick ((base.setDT 2).setST 1)).ST = 0 := by decide
theorem test_tick_faulted :
    next (step (((base.setDT 3).setRun (.faulted .invalidOpcode 0 0x200#16)).setEvents [.tick]))
      (fun t => t.DT == 2 && t.run == .faulted .invalidOpcode 0 0x200#16) = true := by decide

/-- R231: the bytes of a launch stand at 0x000 and 0x200. -/
theorem test_launch : next (launch [0xF0#8] [0x12#8, 0x00#8] [.step])
    (fun t => t.mem == [(0x000, 0xF0#8), (0x200, 0x12#8)] && t.pc == 0x200#16 && t.events == [.step]) = true := by decide

/-! ### Witnesses: for each statement with hypotheses, states and operands that meet them together -/

theorem witness_StepRunsTheDecodedInstruction :
    (placed 0x6005).run = .running ∧ (placed 0x6005).events = .step :: [] ∧ (placed 0x6005).pc.toNat + 1 ≤ 0xFFF ∧
      decode [(placed 0x6005).readByte 0x200, (placed 0x6005).readByte 0x201] = .ok (.ldImm 0x0#4 0x05#8, []) ∧
      (Instr.ldImm 0x0#4 0x05#8).wellFormed = true := by decide

theorem witness_StepRunsTheDecodedInstruction_listed_at_top :
    (((State.reset.setPc 0xFFE#16).setEvents [.tick]).withFetchWord 16 0x1200).events = .step :: [.tick] ∧
      ((State.reset.setPc 0xFFE#16).withFetchWord 16 0x1200).pc.toNat + 1 ≤ 0xFFF ∧
      decode [((State.reset.setPc 0xFFE#16).withFetchWord 16 0x1200).readByte 0xFFE,
        ((State.reset.setPc 0xFFE#16).withFetchWord 16 0x1200).readByte 0xFFF] = .ok (.jp 0x200#12, []) :=
  by decide

theorem witness_FetchOutOfBoundsHalts :
    (State.reset.setPc 0xFFF#16).run = .running ∧
      ((State.reset.setPc 0xFFF#16).setEvents [.step]).events = .step :: [] ∧
      0xFFF ≤ (State.reset.setPc 0xFFF#16).pc.toNat := ⟨rfl, rfl, by decide⟩

theorem witness_UnlistedEventIsAnyEnabledOne :
    (State.reset.events = [] ∧ ∀ x, State.reset.run ≠ .keyWait x) ∧
      (State.reset.setRun (.keyWait 0x2#4)).events = [] ∧
      (State.reset.setRun (.keyWait 0x2#4)).run = .keyWait 0x2#4 := ⟨⟨rfl, fun _ h => (by cases h)⟩, rfl, rfl⟩

theorem witness_FaultedStepRepeatsTheFault :
    (base.setRun (.faulted .memoryBounds 0xF033#16 0x200#16)).run = .faulted .memoryBounds 0xF033#16 0x200#16 ∧
      ((base.setRun (.faulted .memoryBounds 0xF033#16 0x200#16)).setEvents [.step]).events = .step :: [] := ⟨rfl, rfl⟩

theorem witness_InvalidWordRaisesInvalidOpcode_invalid :
    (placed 0x5121).run = .running ∧ ((placed 0x5121).setEvents [.step]).events = .step :: [] ∧ (placed 0x5121).pc.toNat + 1 ≤ 0xFFF ∧
      0x5121#16 = (placed 0x5121).readByte 0x200 ++ (placed 0x5121).readByte 0x201 ∧
      ∃ e, decodeWord 0x5121#16 = .error e := ⟨by decide, rfl, by decide, by decide, _, rfl⟩

theorem witness_InvalidWordRaisesInvalidOpcode_sys :
    State.reset.run = .running ∧ (State.reset.setEvents [.step]).events = .step :: [] ∧ State.reset.pc.toNat + 1 ≤ 0xFFF ∧
      0x0000#16 = State.reset.readByte 0x200 ++ State.reset.readByte 0x201 ∧
      ∃ nnn, decodeWord 0x0000#16 = .ok (.sys nnn) := ⟨rfl, rfl, by decide, by decide, 0x000#12, by decide⟩

theorem witness_DecodeOfEncode : (Instr.sys 0xFFF#12).wellFormed = true ∧ (Instr.drw 0xF#4 0xF#4 0xF#4).wellFormed = true := by
  decide

theorem witness_EncodeOfDecode : decodeWord 0x8F14#16 = .ok (.addReg 0xF#4 0x1#4) := by decide

theorem witness_SysRaisesInvalidOpcode :
    0xFFF#12 ≠ 0x0E0#12 ∧ 0xFFF#12 ≠ 0x0EE#12 ∧ base.pc = 0x200#16 + 2 := by decide

theorem witness_RetPopsOrUnderflows :
    (base.setStack [0x202#16, 0x1000#16]).stack = [0x202#16] ++ [0x1000#16] ∧ base.stack = [] ∧
      base.pc = 0x200#16 + 2 := by decide

theorem witness_CallPushesOrOverflows :
    (base.setStack (List.replicate 15 0x202#16)).stack.length < 16 ∧
      (base.setStack (List.replicate 16 0x202#16)).stack.length = 16 ∧ base.pc = 0x200#16 + 2 := by decide

theorem witness_SkipsOnARegister :
    ((placed 0x912F).setEvents [.step]).run = .running ∧ ((placed 0x912F).setEvents [.step]).events = .step :: [] ∧
      (placed 0x912F).pc.toNat + 1 ≤ 0xFFF ∧
      0x912F#16 = (placed 0x912F).readByte 0x200 ++ (placed 0x912F).readByte 0x201 ∧
      (0x912F#16 : Word).toNat / 0x1000 = 0x9 ∧ (0x912F#16 : Word).toNat % 0x10 ≠ 0 ∧
      (0x5121#16 : Word).toNat / 0x1000 = 0x5 ∧ (0x5121#16 : Word).toNat % 0x10 ≠ 0 := by decide

theorem witness_flag_writers_off_VF : (0xE#4 : RegId) ≠ 0xF#4 := by decide

theorem witness_ShiftsByOne :
    (0x81 : Nat) = (if Config.ShiftSource.vx = .vx then (withV01 0x81 0).getV 0x0#4 else (withV01 0x81 0).getV 0x1#4).toNat ∧
      (0x03 : Nat) = (if Config.ShiftSource.vy = .vx then (withV01 4 3).getV 0x0#4 else (withV01 4 3).getV 0x1#4).toNat := by
  decide

theorem witness_RandomByteIsMasked : (0x0F#8 : Byte).getLsbD 4 = false := by decide

theorem witness_StoresDecimalDigits :
    (base.setI 0xFFD#16).I.toNat + 2 ≤ 0xFFF ∧ 0xFFF < (base.setI 0xFFE#16).I.toNat + 2 ∧
      (base.setI 0xFFE#16).pc = 0x200#16 + 2 := by decide

theorem witness_StoresRegisters :
    (base.setI 0xFF0#16).I.toNat + (0xF#4 : RegId).toNat ≤ 0xFFF ∧
      0xFFF < (base.setI 0xFF1#16).I.toNat + (0xF#4 : RegId).toNat ∧ (base.setI 0xFF1#16).pc = 0x200#16 + 2 := by decide

theorem witness_LoadsRegisters :
    (base.setI 0xFFF#16).I.toNat + (0x0#4 : RegId).toNat ≤ 0xFFF ∧
      0xFFF < (base.setI 0xFFF#16).I.toNat + (0x1#4 : RegId).toNat ∧ (base.setI 0xFFF#16).pc = 0x200#16 + 2 := by decide

theorem witness_DrawsTheSprite_draws :
    [0x80#8] = (List.range (0x1#4 : Nibble).toNat).map (fun k => (withBytes 0xFFF#16 [0x80#8]).readByte (0xFFF + k)) ∧
      (withBytes 0xFFF#16 [0x80#8]).I.toNat + (0x1#4 : Nibble).toNat - 1 ≤ 0xFFF ∧
      spriteBit [0x80#8] 0 0 0 0 = true ∧ (base.setFb (Framebuffer.set base.fb 0 0 true)).pixel 0 0 = true := by decide

theorem witness_DrawsTheSprite_no_collision : ¬ (∃ c r, spriteBit [] 0 0 c r = true ∧ base.pixel c r = true) := by
  simp [spriteBit]

theorem witness_DrawsTheSprite_bounds :
    (0x2#4 : Nibble) ≠ 0 ∧ 0xFFF < (base.setI 0xFFF#16).I.toNat + (0x2#4 : Nibble).toNat - 1 ∧
      (base.setI 0xFFF#16).pc = 0x200#16 + 2 := by decide

theorem witness_DrawingTwiceRestoresThePixels :
    (0x0#4 : RegId) ≠ 0xF#4 ∧ (0x1#4 : RegId) ≠ 0xF#4 ∧
      (withBytes 0x300#16 [0x80#8]).I.toNat + (0x1#4 : Nibble).toNat - 1 ≤ 0xFFF ∧
      ∀ c r, (withBytes 0x300#16 [0x80#8]).pixel c r = false := by
  refine ⟨by decide, by decide, by decide, fun c r => ?_⟩
  simp [withBytes, base, State.pixel, Framebuffer.get, State.reset, State.setPc, State.setI, State.setMem]

theorem witness_AnchorOffTheGridDrawsNothing :
    (withV01 64 0).I.toNat + (0xF#4 : Nibble).toNat - 1 ≤ 0xFFF ∧ 64 ≤ ((withV01 64 0).getV 0x0#4).toNat ∧
      32 ≤ ((withV01 0 32).getV 0x1#4).toNat := by decide

theorem witness_KeyPressEndsTheWait :
    ((base.setRun (.keyWait 0xF#4)).setEvents [.keyPress 0xF#4]).events = .keyPress 0xF#4 :: [] ∧
      ((base.setRun (.keyWait 0xF#4)).setEvents [.keyPress 0xF#4]).run = .keyWait 0xF#4 ∧
      ∀ x, (base.setEvents [.keyPress 0xF#4]).run ≠ .keyWait x := ⟨rfl, rfl, fun _ h => (by cases h)⟩

theorem witness_TickDecrementsBothTimers : (base.setEvents [.tick, .step]).events = .tick :: [.step] := rfl

theorem witness_KeyWaitIsEnteredAndLeftAsStated_left :
    ∃ t, ((base.setRun (.keyWait 0x2#4)).setEvents [.keyPress 0x7#4]).run = .keyWait 0x2#4 ∧
      step ((base.setRun (.keyWait 0x2#4)).setEvents [.keyPress 0x7#4]) = .next t := ⟨_, rfl, rfl⟩

theorem witness_KeyWaitIsEnteredAndLeftAsStated_kept :
    ∃ t, ((base.setRun (.keyWait 0x2#4)).setEvents [.tick]).run = .keyWait 0x2#4 ∧
      step ((base.setRun (.keyWait 0x2#4)).setEvents [.tick]) = .next t := ⟨_, rfl, rfl⟩

theorem witness_KeyWaitIsEnteredAndLeftAsStated_entered :
    (∀ y, (placed 0xF20A).run ≠ .keyWait y) ∧ next (step (placed 0xF20A)) (fun t => t.run == .keyWait 0x2#4) = true :=
  ⟨fun _ h => (by cases h), by decide⟩

theorem witness_FaultedIsAbsorbing :
    ∃ t, (base.setRun (.faulted .stackUnderflow 0x00EE#16 0x200#16)).run = .faulted .stackUnderflow 0x00EE#16 0x200#16 ∧
      step (((base.setRun (.faulted .stackUnderflow 0x00EE#16 0x200#16))).setEvents [.step]) = .next t := ⟨_, rfl, rfl⟩

theorem reset_inv : State.reset.Inv where
  memory := ⟨List.Pairwise.nil, fun c h => by cases h⟩
  index := by decide
  depth := by decide
  returns := fun w h => by cases h
  counter := by decide

theorem reset_faultExact : State.reset.FaultExact := fun k o f h => by cases h

theorem witness_StepKeepsInvariants : ∃ s t : State, s.Inv ∧ step s = .next t :=
  ⟨State.reset.setEvents [.step], _, ⟨reset_inv.memory, reset_inv.index, reset_inv.depth, reset_inv.returns, reset_inv.counter⟩, rfl⟩

theorem witness_StepKeepsTheFaultRecordExact : ∃ s t : State, s.FaultExact ∧ step s = .next t :=
  ⟨State.reset.setEvents [.step], _, reset_faultExact, rfl⟩

theorem witness_FaultsArePrecise :
    base.run = .running ∧ next (exec (.ldB 0x0#4) (base.setI 0xFFF#16)) (faultedAt200 .memoryBounds 0xF033#16) = true := by
  decide

theorem witness_PixelsChangeOnlyByClsAndDrw :
    next (step ((placed 0xD001).setI 0x200#16)) (fun t => t.pixel 0 0 != (placed 0xD001).pixel 0 0) = true := by decide

theorem witness_PixelsAreSeenOnlyAsCollision :
    (∃ t, exec .cls base = .next t) ∧ ∀ x y n, Instr.cls ≠ .drw x y n := ⟨⟨_, rfl⟩, fun _ _ _ h => (by cases h)⟩

theorem witness_StackChangesOnlyByCallAndRet :
    next (step (placed 0x2300)) (fun t => t.stack != (placed 0x2300).stack) = true := by decide

theorem witness_MemoryChangesOnlyInStoredRanges :
    next (step (((placed 0xF033).setI 0xFFD#16).setV 0x0#4 1)) (fun t => t.readByte 0xFFF != 0x00#8) = true := by decide

theorem witness_AddressRegisterChangesOnlyByItsWriters :
    next (step (placed 0xAFFF)) (fun t => t.I != (placed 0xAFFF).I) = true := by decide

theorem witness_PcAfterEachInstruction :
    (∃ t, exec (.jp 0xFFF#12) base = .next t) ∧ (∃ t, exec (.jpV0 0xFFF#12) (withV01 0xFF 0) = .next t) ∧
      ∃ t, exec .ret (base.setStack [0x1000#16]) = .next t := ⟨⟨_, rfl⟩, ⟨_, rfl⟩, _, rfl⟩

theorem witness_LoadCopiesTheBytes :
    0x200 + (List.replicate 3584 (0x12#8 : Byte)).length ≤ 0x1000 ∧
      0x1000 < 0x200 + (List.replicate 3585 (0x12#8 : Byte)).length ∧
      (0x200 : Nat) = (if false then 0x000 else 0x200) ∧ (0x000 : Nat) = (if true then 0x000 else 0x200) :=
  ⟨by rw [List.length_replicate], by rw [List.length_replicate]; decide, rfl, rfl⟩

/-- Fx55 over the very next instruction, its second byte read as the low one. -/
theorem witness_StoredCodeIsFetched_registers :
    (placed 0xF155).run = .running ∧ (placed 0xF155).events = .step :: [] ∧ (placed 0xF155).pc.toNat + 1 ≤ 0xFFF ∧
      0xF155#16 = (placed 0xF155).readByte 0x200 ++ (placed 0xF155).readByte 0x201 ∧
      decodeWord 0xF155#16 = .ok (.ldMemVx 0x1#4) ∧
      ((placed 0xF155).setI 0x202#16).I.toNat + (List.range ((0x1#4 : RegId).toNat + 1)).length ≤ 0x1000 ∧
      (0x202#16 : Word).toNat + 1 = ((placed 0xF155).setI 0x202#16).I.toNat + 1 := by decide

/-- Fx33 at the top of memory. -/
theorem witness_StoredCodeIsFetched_digits :
    0xF033#16 = (placed 0xF033).readByte 0x200 ++ (placed 0xF033).readByte 0x201 ∧
      decodeWord 0xF033#16 = .ok (.ldB 0x0#4) ∧ (bcdDigits 0xFF#8)[2]? = some 5 ∧
      ((placed 0xF033).setI 0xFFD#16).I.toNat + (bcdDigits 0xFF#8).length ≤ 0x1000 := by decide

/-- R62: `F155` with I = 0x202, V0 = 0x60, V1 = 0x2A makes the next fetch read 602A. -/
theorem test_stored_code_is_fetched :
    next (step ((((placed 0xF155).setI 0x202#16).setV 0x0#4 0x60#8).setV 0x1#4 0x2A#8))
      (fun t => t.fetchOpcode == 0x602A#16) = true := by decide

theorem witness_StatusOfEachInstruction : base.run = .running ∧ ∃ t, exec (.ldVxK 0xF#4) base = .next t := ⟨rfl, _, rfl⟩

theorem witness_RegisterInstructionsFrame :
    registerDestinations (.addReg 0xF#4 0xF#4) = some [0xF#4, 0xF#4] ∧
      ∃ t, exec (.addReg 0xF#4 0xF#4) base = .next t := ⟨rfl, _, rfl⟩

theorem witness_DisabledEventsStop :
    ((base.setRun (.keyWait 0x2#4)).setEvents [.step]).events = .step :: [] ∧
      (∀ x, (base.setEvents [.keyPress 0x0#4]).run ≠ .keyWait x) ∧
      (base.setEvents [.keyPress 0x0#4]).events = .keyPress 0x0#4 :: [] := ⟨rfl, fun _ h => (by cases h), rfl⟩

end Sys2Proof.Machine.Tests
end

section
/-! SUPPORT. The rules that the proofs about the state (spec/10_state.md) share: what a completed instruction does to
memory, I, the stack and pc, what a step does that completes none, and the updates that keep to a register frame. -/
namespace Sys2Proof.Machine

theorem finish_next {st : Status} {s t : State} : finish st s = .next t ↔ t = s.setStatus st := by
  simp [finish, eq_comm]

@[simp] theorem State.skipIf_pc (s : State) (taken : Bool) :
    (s.skipIf taken).pc = if taken then s.pc + 2 else s.pc := by
  cases taken <;> rfl

theorem inBoundsFetch_pc_add_two {pc : Word} (h : inBoundsFetch pc = true) : (pc + 2).toNat ≤ 0x1000 := by
  have := (inBoundsFetch_iff pc).1 h
  bv_omega

/-- The exact sum of Bnnn fits a word (spec/41_flow.md R129). -/
theorem zextByte_add_zextAddr_toNat (b : Byte) (nnn : Addr) :
    (zextByte b + zextAddr nnn).toNat = b.toNat + nnn.toNat := by
  simp only [zextByte, zextAddr]
  bv_omega

/-- CALL with room on the stack (spec/41_flow.md R124). -/
theorem execCall_of_room {s : State} (nnn : Addr) (h : s.stack.length < stackCapacity) :
    execCall nnn s = finish .ok ((s.setStack (s.stack ++ [s.pc])).setPc (zextAddr nnn)) := by
  simp [execCall, State.push, h]

/-- CALL at capacity (spec/41_flow.md R124). -/
theorem execCall_of_full {s : State} (nnn : Addr) (h : ¬ s.stack.length < stackCapacity) :
    execCall nnn s = raise .stackOverflow (.call nnn) s := by
  simp [execCall, State.push, h]

/-- RET takes the last address saved (spec/41_flow.md R122). -/
theorem execRet_of_append {s : State} {l : List Word} {w : Word} (h : s.stack = l ++ [w]) :
    execRet s = finish .ok ((s.setStack l).setPc w) := by
  simp [execRet, State.pop_append s l w h]

/-- RET with nothing saved (spec/41_flow.md R122). -/
theorem execRet_of_empty {s : State} (h : s.stack = []) : execRet s = raise .stackUnderflow .ret s := by
  simp [execRet, State.pop_empty s h]

/-- Only Fx33 and Fx55 write memory (spec/20_memory.md R52). -/
theorem Writes_mem {s u : State} {i : Instr} (h : Writes s u i) :
    u.mem = s.mem ∨
      ∃ x, (i = .ldB x ∧ u.mem = s.mem.writeBytes s.I.toNat (bcdDigits (s.getV x))) ∨
        (i = .ldMemVx x ∧ u.mem = s.mem.writeBytes s.I.toNat (s.getRegs 0 (regCount x))) := by
  cases i with
  | sys nnn => exact h.elim
  | ret => obtain ⟨l, w, -, h⟩ := h; exact .inl (by rw [h])
  | ldB x => exact .inr ⟨x, .inl ⟨rfl, by rw [h.2]⟩⟩
  | ldMemVx x => exact .inr ⟨x, .inr ⟨rfl, by rw [h.2]⟩⟩
  | call _ | seImm _ _ | sneImm _ _ | seReg _ _ | sneReg _ _ | skp _ | sknp _ | ldI _ | addI _ | ldF _ | drw _ _ _
  | ldVxMem _ => exact .inl (by rw [h.2])
  | _ => exact .inl (by rw [Writes] at h; rw [h])

/-- Only Annn, Fx1E and Fx29 write I (spec/10_state.md R29). -/
theorem Writes_I {s u : State} {i : Instr} (h : Writes s u i) :
    u.I = s.I ∨ (u.I.toNat ≤ 0xFFF ∧ ((∃ nnn, i = .ldI nnn) ∨ (∃ x, i = .addI x) ∨ ∃ x, i = .ldF x)) := by
  cases i with
  | sys nnn => exact h.elim
  | ret => obtain ⟨l, w, -, h⟩ := h; exact .inl (by rw [h])
  | ldI nnn => exact .inr ⟨h.1, .inl ⟨nnn, rfl⟩⟩
  | addI x => exact .inr ⟨h.1, .inr (.inl ⟨x, rfl⟩)⟩
  | ldF x => exact .inr ⟨h.1, .inr (.inr ⟨x, rfl⟩)⟩
  | call _ | seImm _ _ | sneImm _ _ | seReg _ _ | sneReg _ _ | skp _ | sknp _ | drw _ _ _ | ldB _ | ldMemVx _
  | ldVxMem _ => exact .inl (by rw [h.2])
  | _ => exact .inl (by rw [Writes] at h; rw [h])

/-- Only RET and CALL write the stack (spec/10_state.md R28). -/
theorem Writes_stack {s u : State} {i : Instr} (h : Writes s u i) :
    u.stack = s.stack ∨ (i = .ret ∧ ∃ w, s.stack = u.stack ++ [w]) ∨
      ∃ nnn, i = .call nnn ∧ s.stack.length < stackCapacity ∧ u.stack = s.stack ++ [s.pc] := by
  cases i with
  | sys nnn => exact h.elim
  | ret =>
    obtain ⟨l, w, hl, h⟩ := h
    exact .inr (.inl ⟨rfl, w, by rw [h, hl]⟩)
  | call nnn => exact .inr (.inr ⟨nnn, rfl, h.1, by rw [h.2]⟩)
  | seImm _ _ | sneImm _ _ | seReg _ _ | sneReg _ _ | skp _ | sknp _ | ldI _ | addI _ | ldF _ | drw _ _ _ | ldB _
  | ldMemVx _ | ldVxMem _ => exact .inl (by rw [h.2])
  | _ => exact .inl (by rw [Writes] at h; rw [h])

/-- The instructions that write pc: jumps, CALL, RET and the skips (spec/10_state.md R26). -/
def writesPc : Instr → Bool
  | .ret | .jp _ | .call _ | .jpV0 _ => true
  | .seImm .. | .sneImm .. | .seReg .. | .sneReg .. | .skp _ | .sknp _ => true
  | _ => false

theorem Writes_pc {s u : State} {i : Instr} (h : Writes s u i) (hi : writesPc i = false) : u.pc = s.pc := by
  cases i with
  | sys nnn => exact h.elim
  | ret | jp _ | call _ | jpV0 _ | seImm _ _ | sneImm _ _ | seReg _ _ | sneReg _ _ | skp _ | sknp _ => cases hi
  | ldI _ | addI _ | ldF _ | drw _ _ _ | ldB _ | ldMemVx _ | ldVxMem _ => rw [h.2]
  | _ => rw [Writes] at h; rw [h]

/-- An instruction fetched at or below 0xFFE leaves pc at most 0xFF + 0xFFF (spec/10_state.md R27). -/
theorem Writes_pc_le {s u : State} {i : Instr} (h : Writes s u i) (hs : ∀ w ∈ s.stack, w.toNat ≤ 0x1000)
    (hpc : s.pc.toNat ≤ 0x1000) : u.pc.toNat ≤ 0x10FE := by
  have skip (hu : u.pc = s.pc ∨ u.pc = s.pc + 2) : u.pc.toNat ≤ 0x10FE := by
    rcases hu with hu | hu <;> rw [hu] <;> bv_omega
  have jump (nnn : Addr) (hu : u.pc = zextAddr nnn) : u.pc.toNat ≤ 0x10FE := by
    rw [hu, zextAddr]; bv_omega
  cases i with
  | ret =>
    obtain ⟨l, w, hl, h⟩ := h
    have := hs w (by simp [hl])
    rw [h]; exact this.trans (by decide)
  | jp nnn => exact jump nnn (by rw [Writes] at h; rw [h])
  | call nnn => exact jump nnn (by rw [h.2])
  | jpV0 nnn =>
    have hsum : u.pc = zextByte (s.getV 0x0#4) + zextAddr nnn := by rw [Writes] at h; rw [h]
    rw [hsum, zextByte_add_zextAddr_toNat]
    omega
  | seImm _ _ | sneImm _ _ | seReg _ _ | sneReg _ _ | skp _ | sknp _ => exact skip h.1
  | _ => rw [Writes_pc h rfl]; omega

/-- Memory, I, the stack and the pixels are as before. -/
def KeepsData (s t : State) : Prop := t.mem = s.mem ∧ t.I = s.I ∧ t.stack = s.stack ∧ t.fb = s.fb

/-- A step either completed an instruction, started with pc advanced, or changed neither memory, I, the stack nor a
pixel, and then moved pc by a fetch at most (spec/40_step_cycle.md R103, R106). -/
theorem step_completed_or_kept {s t : State} (h : step s = .next t) :
    (∃ i b u, s.run = .running ∧ inBoundsFetch s.pc = true ∧ decodeWord s.fetchOpcode = .ok i ∧
      b = { s with pc := s.pc + 2, events := b.events, draws := b.draws } ∧
      Writes b u i ∧ t = u.setStatus (completionStatus i)) ∨
    KeepsData s t ∧ (t.pc = s.pc ∨ inBoundsFetch s.pc = true ∧ t.pc = s.pc + 2) := by
  obtain ⟨s', e, h⟩ := step_next_cases h
  have kept : KeepsData s s' := by rw [e]; exact ⟨rfl, rfl, rfl, rfl⟩
  have keptPc : s'.pc = s.pc := by rw [e]
  have faults {kind : FaultKind} {op : Word} (hb : inBoundsFetch s.pc = true)
      (ht : takeFault kind op s'.advance = .next t) :
      KeepsData s t ∧ (t.pc = s.pc ∨ inBoundsFetch s.pc = true ∧ t.pc = s.pc + 2) := by
    cases ht
    exact ⟨kept, .inr ⟨hb, by rw [← keptPc]; rfl⟩⟩
  rcases h with ⟨kind, op, f, -, rfl⟩ | ⟨-, -, rfl⟩ | ⟨i, hr, hb, hd, hi⟩ | ⟨-, -, hb, -, ht⟩ | rfl |
    ⟨k, x, -, rfl⟩
  · exact .inr ⟨kept, .inl keptPc⟩
  · exact .inr ⟨kept, .inl keptPc⟩
  · rcases exec_cases i s'.advance with ⟨kind, -, hx⟩ | ⟨u, hw, hx⟩
    · exact .inr (faults hb (hx.symm.trans hi))
    · exact .inl ⟨i, s'.advance, u, hr, hb, hd, by rw [e]; rfl, hw, finish_next.1 (hx.symm.trans hi)⟩
  · exact .inr (faults hb ht)
  · exact .inr ⟨kept, .inl keptPc⟩
  · exact .inr ⟨kept, .inl keptPc⟩

theorem Writes_keeps_inv {s u : State} {i : Instr} (h : Writes s u i) (hs : s.Inv) (hpc : s.pc.toNat ≤ 0x1000) :
    u.Inv where
  memory := by
    rcases Writes_mem h with e | ⟨x, ⟨-, e⟩ | ⟨-, e⟩⟩ <;> rw [e]
    · exact hs.memory
    · exact Memory.writeBytes_wf hs.memory _ _
    · exact Memory.writeBytes_wf hs.memory _ _
  index := by
    rcases Writes_I h with e | ⟨hle, -⟩
    · rw [e]; exact hs.index
    · exact hle
  depth := by
    rcases Writes_stack h with e | ⟨-, w, e⟩ | ⟨nnn, -, hlt, e⟩
    · rw [e]; exact hs.depth
    · have := hs.depth
      rw [e, List.length_append, List.length_singleton] at this
      omega
    · rw [e, List.length_append, List.length_singleton]
      omega
  returns w hw := by
    rcases Writes_stack h with e | ⟨-, v, e⟩ | ⟨nnn, -, -, e⟩
    · exact hs.returns w (e ▸ hw)
    · exact hs.returns w (by rw [e]; exact List.mem_append_left _ hw)
    · rw [e, List.mem_append, List.mem_singleton] at hw
      rcases hw with hw | rfl
      · exact hs.returns w hw
      · exact hpc
  counter := Writes_pc_le h hs.returns hpc

/-- The invariant speaks of memory, I, the stack and pc alone. -/
theorem State.Inv.of_keepsData {s t : State} (hs : s.Inv) (h : KeepsData s t) (hpc : t.pc.toNat ≤ 0x10FE) : t.Inv := by
  obtain ⟨hmem, hI, hstack, -⟩ := h
  exact
    { memory := by rw [hmem]; exact hs.memory
      index := by rw [hI]; exact hs.index
      depth := by rw [hstack]; exact hs.depth
      returns := by rw [hstack]; exact hs.returns
      counter := hpc }

/-- Outside the instructions that write pc, exec keeps it, at a fault too (spec/10_state.md R26). -/
theorem exec_keeps_pc {i : Instr} {s t : State} (h : exec i s = .next t) (hi : writesPc i = false) :
    t.pc = s.pc := by
  rcases exec_cases i s with ⟨kind, -, hx⟩ | ⟨u, hw, hx⟩
  · cases hx.symm.trans h; rfl
  · rw [finish_next.1 (hx.symm.trans h), State.setStatus_pc]; exact Writes_pc hw hi

/-! The updates that keep to a register frame. -/

theorem OnlyRegsAndPc.refl (xs : List RegId) (s : State) : OnlyRegsAndPc xs s s :=
  ⟨fun _ _ => rfl, fun _ => rfl, fun _ _ => rfl, ⟨rfl, rfl, rfl⟩, rfl, rfl, rfl⟩

section
variable {xs : List RegId} {s t : State} (h : OnlyRegsAndPc xs s t)
include h

theorem OnlyRegsAndPc.setPc (w : Word) : OnlyRegsAndPc xs s (t.setPc w) := h

theorem OnlyRegsAndPc.setStatus (st : Status) : OnlyRegsAndPc xs s (t.setStatus st) := h

theorem OnlyRegsAndPc.draw : OnlyRegsAndPc xs s t.draw := h

theorem OnlyRegsAndPc.skipIf (taken : Bool) : OnlyRegsAndPc xs s (t.skipIf taken) := by
  cases taken
  · exact h
  · exact h.setPc _

theorem OnlyRegsAndPc.setV {x : RegId} (hx : x ∈ xs) (b : Byte) : OnlyRegsAndPc xs s (t.setV x b) := by
  obtain ⟨hregs, hrest⟩ := h
  refine ⟨fun j hj => ?_, hrest⟩
  have hne : j ≠ x := by rintro rfl; exact hj hx
  rw [State.setV_getV_ne t b hne]
  exact hregs j hj

theorem OnlyRegsAndPc.writeResultAndFlag {x : RegId} (hx : x ∈ xs) (hvf : vf ∈ xs) (o : Config.VfWriteOrder)
    (r : Byte) (f : Bool) : OnlyRegsAndPc xs s (writeResultAndFlag o x r f t) := by
  cases o with
  | flagLast => exact (h.setV hx r).setV hvf (flagByte f)
  | resultLast => exact (h.setV hvf (flagByte f)).setV hx r

/-- Completing an instruction writes the status alone. -/
theorem OnlyRegsAndPc.of_finish {st : Status} {u : State} (hu : finish st t = .next u) : OnlyRegsAndPc xs s u := by
  rw [finish_next.1 hu]; exact h.setStatus st

end

end Sys2Proof.Machine
end

section
/-! PROOFS. The statements about the state (spec/10_state.md). -/
namespace Sys2Proof.Machine

/-- Settles O46: a completed instruction keeps the invariant, because its fetch left pc at most 0x1000; every other
step keeps memory, I and the stack, and moves pc by that fetch at most. -/
theorem stepKeepsInvariants : Obligations.StepKeepsInvariants := by
  intro s t hs h
  rcases step_completed_or_kept h with ⟨i, b, u, -, hb, -, e, hw, rfl⟩ | ⟨hk, hpc⟩
  · have hpc : b.pc.toNat ≤ 0x1000 := by rw [e]; exact inBoundsFetch_pc_add_two hb
    have hb : b.Inv := hs.of_keepsData (by rw [e]; exact ⟨rfl, rfl, rfl, rfl⟩) (hpc.trans (by decide))
    have hu : u.Inv := Writes_keeps_inv hw hb hpc
    exact hu.of_keepsData ⟨rfl, rfl, rfl, rfl⟩ hu.counter
  · refine hs.of_keepsData hk ?_
    rcases hpc with hpc | ⟨hb, hpc⟩ <;> rw [hpc]
    · exact hs.counter
    · exact (inBoundsFetch_pc_add_two hb).trans (by decide)

/-- Settles O51: only a completed instruction changes the stack, and of these only RET and CALL. -/
theorem stackChangesOnlyByCallAndRet : Obligations.StackChangesOnlyByCallAndRet := by
  intro s t h hne
  rcases step_completed_or_kept h with ⟨i, b, u, hr, -, hd, e, hw, rfl⟩ | ⟨⟨-, -, hstack, -⟩, -⟩
  · refine ⟨hr, i, hd, ?_⟩
    have hbs : b.stack = s.stack := by rw [e]
    have hbp : b.pc = s.pc + 2 := by rw [e]
    rcases Writes_stack hw with hu | ⟨hi, w, hu⟩ | ⟨nnn, hi, -, hu⟩
    · exact absurd (hu.trans hbs) hne
    · exact .inl ⟨hi, w, hbs.symm.trans hu⟩
    · exact .inr ⟨nnn, hi, by rw [State.setStatus_stack, hu, hbs, hbp]⟩
  · exact absurd hstack hne

/-- Settles O53: only a completed instruction changes I, and of these only the three writers, which stay within 12
bits. -/
theorem addressRegisterChangesOnlyByItsWriters : Obligations.AddressRegisterChangesOnlyByItsWriters := by
  intro s t h hne
  rcases step_completed_or_kept h with ⟨i, b, u, hr, -, hd, e, hw, rfl⟩ | ⟨⟨-, hI, -, -⟩, -⟩
  · have hbI : b.I = s.I := by rw [e]
    rcases Writes_I hw with hu | ⟨hle, hi⟩
    · exact absurd (hu.trans hbI) hne
    · exact ⟨hr, hle, i, hd, hi⟩
  · exact absurd hI hne

/-- Settles O54, by the instruction: the ten that write pc each by its own rule, the others keep it. -/
theorem pcAfterEachInstruction : Obligations.PcAfterEachInstruction := by
  intro i s t h
  cases i with
  | jp nnn => rw [finish_next.1 h]; rfl
  | call nnn =>
    by_cases hroom : s.stack.length < stackCapacity
    · cases (execCall_of_room nnn hroom).symm.trans h
      exact (if_pos hroom).symm
    · cases (execCall_of_full nnn hroom).symm.trans h
      exact (if_neg hroom).symm
  | ret =>
    refine ⟨fun hempty => ?_, fun l w hl => ?_⟩
    · cases (execRet_of_empty hempty).symm.trans h; rfl
    · cases (execRet_of_append hl).symm.trans h; rfl
  | jpV0 nnn => rw [finish_next.1 h]; exact zextByte_add_zextAddr_toNat _ _
  | seImm x nn => rw [finish_next.1 h]; simp
  | sneImm x nn => rw [finish_next.1 h]; simp
  | seReg x y => rw [finish_next.1 h]; simp
  | sneReg x y => rw [finish_next.1 h]; simp
  | skp x => rw [finish_next.1 h]; simp [keyPressed]
  | sknp x =>
    rw [finish_next.1 h]
    cases hk : (Config.pressedKeys s.draws).getLsbD (s.getV x).toNat <;> simp [keyPressed, hk]
  | _ => exact exec_keeps_pc h rfl

/-- Settles O59, by the instruction: each is a chain of updates that keep to its destinations. -/
theorem registerInstructionsFrame : Obligations.RegisterInstructionsFrame := by
  intro i xs s t hi h
  cases i with
  | jp _ | jpV0 _ => cases hi; exact ((OnlyRegsAndPc.refl _ s).setPc _).of_finish h
  | seImm _ _ | sneImm _ _ | seReg _ _ | sneReg _ _ =>
    cases hi; exact ((OnlyRegsAndPc.refl _ s).skipIf _).of_finish h
  | skp _ | sknp _ => cases hi; exact ((OnlyRegsAndPc.refl _ s).draw.skipIf _).of_finish h
  | ldImm x _ | addImm x _ | ldReg x _ | orReg x _ | andReg x _ | xorReg x _ | ldVxDt x =>
    cases hi; exact ((OnlyRegsAndPc.refl _ s).setV (List.mem_singleton_self x) _).of_finish h
  | rnd x _ => cases hi; exact ((OnlyRegsAndPc.refl _ s).draw.setV (List.mem_singleton_self x) _).of_finish h
  | addReg x _ | sub x _ | shr x _ | subn x _ | shl x _ =>
    cases hi
    exact ((OnlyRegsAndPc.refl _ s).writeResultAndFlag (by simp) (by simp [vf]) _ _ _).of_finish h
  | _ => cases hi

/-- Settles O1: component by component. -/
theorem resetGivesStatedValues : Obligations.ResetGivesStatedValues := by
  refine ⟨fun x => ?_, rfl, rfl, rfl, rfl, rfl, Framebuffer.get_clear, fun _ _ => rfl, rfl⟩
  simp [State.getV, State.reset]

/-- Settles O26: what a register holds after the two writes, read at VF and at Vx. -/
theorem lastWriteToVFWins : Obligations.LastWriteToVFWins := by
  intro r flag s
  refine ⟨?_, ?_, fun order x hx => ⟨?_, ?_⟩⟩ <;> rw [writeResultAndFlag_getV]
  · simp [vf, flagByte]
  · simp [vf]
  · simp [vf, hx]
  · simp [vf, hx, flagByte]

/-- Settles O45: memory and the stack are empty at reset, and the core is Running. -/
theorem resetMeetsTheInvariants : Obligations.ResetMeetsTheInvariants where
  left :=
    { memory := ⟨.nil, by simp [State.reset]⟩
      index := by decide
      depth := by decide
      returns := by simp [State.reset]
      counter := by decide }
  right kind op f hf := by cases hf

end Sys2Proof.Machine
end

section
/-! SUPPORT. The rules that the proofs about memory (spec/20_memory.md) share: where a write of consecutive bytes can
be seen, what a fetch reads, and what the two stores do when their range fits. -/
namespace Sys2Proof.Machine

/-- A write of consecutive bytes is seen nowhere but in its range, and there at cells alone, wherever it ends. -/
theorem Memory.range_of_read_writeBytes_ne {m : Memory} {a : Nat} {bs : List Byte} {c : Nat}
    (h : (m.writeBytes a bs).read c ≠ m.read c) : a ≤ c ∧ c < a + bs.length ∧ c ≤ 0xFFF := by
  induction bs generalizing m a with
  | nil => exact absurd rfl h
  | cons b bs ih =>
    rw [List.length_cons]
    by_cases hrest : (m.writeBytes a (b :: bs)).read c = (m.write a b).read c
    · rw [hrest, Memory.read_write] at h
      have hc : c = a ∧ a ≤ Config.topAddress := by
        by_contra hc
        exact h (if_neg hc)
      obtain ⟨rfl, htop⟩ := hc
      exact ⟨le_rfl, by omega, htop⟩
    · obtain ⟨hlo, hhi, htop⟩ := ih hrest
      exact ⟨by omega, by omega, htop⟩

/-- Each of the bytes written within memory is the one read at its place (spec/20_memory.md R60). -/
theorem Memory.read_writeBytes_of_getElem? (m : Memory) {a k : Nat} {bs : List Byte} {b : Byte}
    (h : inBoundsRange a bs.length = true) (hk : bs[k]? = some b) : (m.writeBytes a bs).read (a + k) = b := by
  obtain ⟨hlt, -⟩ := List.getElem?_eq_some_iff.1 hk
  rw [Memory.read_writeBytes m a bs h, if_pos (by omega), Nat.add_sub_cancel_left, List.getD_eq_getElem?_getD, hk]
  rfl

/-- The byte at pc is the opcode's high one (spec/20_memory.md R53). -/
theorem State.fetchOpcode_high (s : State) : s.fetchOpcode.extractLsb' 8 8 = s.readByte s.pc.toNat :=
  BitVec.extractLsb'_append_eq_left

/-- The byte after pc is the opcode's low one (spec/20_memory.md R53). -/
theorem State.fetchOpcode_low (s : State) : s.fetchOpcode.extractLsb' 0 8 = s.readByte (s.pc.toNat + 1) :=
  BitVec.extractLsb'_append_eq_right

theorem inBoundsRange_of_add_le {a len : Nat} (h : a + len ≤ 0x1000) : inBoundsRange a len = true :=
  (inBoundsRange_iff a len).2 (by omega)

/-- The registers from V0 on, as a map over their numbers. -/
theorem State.getRegs_zero_eq_map (s : State) (n : Nat) :
    s.getRegs 0 n = (List.range n).map (fun k => s.getV (BitVec.ofNat 4 k)) := by
  apply List.ext_getElem?
  intro m
  rw [State.getRegs_getElem?, List.getElem?_map]
  by_cases hm : m < n <;> simp [hm]

/-- Fx33 with its range in memory (spec/43_index_memory.md R165). -/
theorem execLdB_of_inBounds {s : State} (x : RegId) (h : inBoundsRange s.I.toNat 3 = true) :
    execLdB x s = finish .ok (s.setMem (s.mem.writeBytes s.I.toNat (bcdDigits (s.getV x)))) :=
  if_pos h

/-- Fx55 with its range in memory, I being kept (spec/43_index_memory.md R166, R167). -/
theorem execLdMemVx_of_inBounds {s : State} (x : RegId) (h : inBoundsRange s.I.toNat (regCount x) = true) :
    execLdMemVx x s = finish .ok (s.setMem (s.mem.writeBytes s.I.toNat
      ((List.range (regCount x)).map (fun k => s.getV (BitVec.ofNat 4 k))))) := by
  rw [← State.getRegs_zero_eq_map]
  exact if_pos h

/-- A listed Step of a Running core runs the instruction that stands at pc (spec/40_step_cycle.md R103, R106). -/
theorem step_of_fetched {s : State} {es : List HostEvent} {i : Instr} (hr : s.run = .running)
    (he : s.events = .step :: es) (hpc : s.pc.toNat + 1 ≤ 0xFFF) (hd : decodeWord s.fetchOpcode = .ok i) :
    step s = exec i (s.setEvents es).advance := by
  have hb : inBoundsFetch s.pc = true := (inBoundsFetch_iff s.pc).2 hpc
  have hcore : coreStep (s.setEvents es) = runFetched (s.setEvents es) := by simp [coreStep, hr, hb]
  rw [step_of_listed he]
  refine hcore.trans ?_
  rcases runFetched_cases (s.setEvents es) with ⟨j, hj, hrun⟩ | ⟨e, hj, -⟩
  · cases hj.symm.trans hd
    exact hrun
  · cases hj.symm.trans hd

end Sys2Proof.Machine
end

section
/-! PROOFS. The statements about memory (spec/20_memory.md). -/
namespace Sys2Proof.Machine

/-- Settles O52: only a completed instruction changes memory, of these only the two stores, and a store's bytes are
seen in its range alone. -/
theorem memoryChangesOnlyInStoredRanges : Obligations.MemoryChangesOnlyInStoredRanges := by
  intro s t a h hne
  rcases step_completed_or_kept h with ⟨i, b, u, hr, -, hd, e, hw, rfl⟩ | ⟨⟨hmem, -⟩, -⟩
  · have hbm : b.mem = s.mem := by rw [e]
    have hbI : b.I = s.I := by rw [e]
    have seen {bs : List Byte} (hu : u.mem = b.mem.writeBytes b.I.toNat bs) :
        s.I.toNat ≤ a ∧ a < s.I.toNat + bs.length ∧ a ≤ 0xFFF := by
      rw [hbm, hbI] at hu
      refine Memory.range_of_read_writeBytes_ne (m := s.mem) ?_
      rw [← hu]
      exact hne
    rcases Writes_mem hw with hu | ⟨x, ⟨rfl, hu⟩ | ⟨rfl, hu⟩⟩
    · exact absurd (congrArg (Memory.read · a) (hu.trans hbm)) hne
    · obtain ⟨hlo, hhi, htop⟩ := seen hu
      exact ⟨hr, htop, hlo, x, .inl ⟨hd, Nat.le_of_lt_succ hhi⟩⟩
    · obtain ⟨hlo, hhi, htop⟩ := seen hu
      rw [State.getRegs_length, regCount] at hhi
      exact ⟨hr, htop, hlo, x, .inr ⟨hd, by omega⟩⟩
  · exact absurd (congrArg (Memory.read · a) hmem) hne

/-- Settles O56: the step is the store, whose bytes are then the ones read at their places, and a fetch is made of the
bytes read at pc and after it. -/
theorem storedCodeIsFetched : Obligations.StoredCodeIsFetched := by
  intro s es x stored op hr he hpc hop hstore hfit
  have hin : inBoundsRange s.I.toNat stored.length = true := inBoundsRange_of_add_le hfit
  have hstep : step s = finish .ok ((s.setEvents es).advance.setMem (s.mem.writeBytes s.I.toNat stored)) := by
    subst hop
    rcases hstore with ⟨hd, rfl⟩ | ⟨hd, rfl⟩ <;> rw [step_of_fetched hr he hpc hd]
    · rw [List.length_map, List.length_range] at hin
      exact execLdMemVx_of_inBounds (s := (s.setEvents es).advance) x hin
    · exact execLdB_of_inBounds (s := (s.setEvents es).advance) x hin
  refine ⟨_, hstep, rfl, hr, fun u k b hk hu => ?_⟩
  have hread : u.readByte (s.I.toNat + k) = b :=
    hu.trans (Memory.read_writeBytes_of_getElem? s.mem hin hk)
  refine ⟨fun hat => ?_, fun hbelow => ?_⟩
  · rw [State.fetchOpcode_high, hat, hread]
  · rw [State.fetchOpcode_low, hbelow, hread]

end Sys2Proof.Machine
end

section
/-! SUPPORT. The rules that the proofs about the encoding (spec/30_encoding.md) share: the fields of a word put
together from fields, a word put together again from its own fields, decoder and encoder as inverses, and the words
each family rejects. -/
namespace Sys2Proof

/-! The fields of R71 as arithmetic of the word. -/

theorem fieldTop_toNat (op : Word) : (fieldTop op).toNat = op.toNat / 0x1000 := by
  rw [fieldTop, BitVec.extractLsb'_toNat, Nat.shiftRight_eq_div_pow]
  omega

theorem fieldX_toNat (op : Word) : (fieldX op).toNat = op.toNat / 0x100 % 0x10 := by
  rw [fieldX, BitVec.extractLsb'_toNat, Nat.shiftRight_eq_div_pow]

theorem fieldY_toNat (op : Word) : (fieldY op).toNat = op.toNat / 0x10 % 0x10 := by
  rw [fieldY, BitVec.extractLsb'_toNat, Nat.shiftRight_eq_div_pow]

theorem fieldN_toNat (op : Word) : (fieldN op).toNat = op.toNat % 0x10 := by
  rw [fieldN, BitVec.extractLsb'_toNat, Nat.shiftRight_zero]

theorem fieldNN_toNat (op : Word) : (fieldNN op).toNat = op.toNat % 0x100 := by
  rw [fieldNN, BitVec.extractLsb'_toNat, Nat.shiftRight_zero]

theorem fieldNNN_toNat (op : Word) : (fieldNNN op).toNat = op.toNat % 0x1000 := by
  rw [fieldNNN, BitVec.extractLsb'_toNat, Nat.shiftRight_zero]

/-! The fields of a word laid out by each of the three formats. -/

@[simp] theorem fieldTop_nnn (a : Nibble) (nnn : Addr) : fieldTop (a ++ nnn) = a :=
  BitVec.extractLsb'_append_eq_left

@[simp] theorem fieldNNN_nnn (a : Nibble) (nnn : Addr) : fieldNNN (a ++ nnn) = nnn :=
  BitVec.extractLsb'_append_eq_right

@[simp] theorem fieldTop_xnn (a : Nibble) (x : RegId) (nn : Byte) : fieldTop (a ++ x ++ nn) = a :=
  (BitVec.extractLsb'_append_eq_of_le (by decide)).trans BitVec.extractLsb'_append_eq_left

@[simp] theorem fieldX_xnn (a : Nibble) (x : RegId) (nn : Byte) : fieldX (a ++ x ++ nn) = x :=
  (BitVec.extractLsb'_append_eq_of_le (by decide)).trans BitVec.extractLsb'_append_eq_right

@[simp] theorem fieldNN_xnn (a : Nibble) (x : RegId) (nn : Byte) : fieldNN (a ++ x ++ nn) = nn :=
  BitVec.extractLsb'_append_eq_right

@[simp] theorem fieldTop_xyn (a : Nibble) (x y : RegId) (n : Nibble) : fieldTop (a ++ x ++ y ++ n) = a :=
  (BitVec.extractLsb'_append_eq_of_le (by decide)).trans
    ((BitVec.extractLsb'_append_eq_of_le (by decide)).trans BitVec.extractLsb'_append_eq_left)

@[simp] theorem fieldX_xyn (a : Nibble) (x y : RegId) (n : Nibble) : fieldX (a ++ x ++ y ++ n) = x :=
  (BitVec.extractLsb'_append_eq_of_le (by decide)).trans
    ((BitVec.extractLsb'_append_eq_of_le (by decide)).trans BitVec.extractLsb'_append_eq_right)

@[simp] theorem fieldY_xyn (a : Nibble) (x y : RegId) (n : Nibble) : fieldY (a ++ x ++ y ++ n) = y :=
  (BitVec.extractLsb'_append_eq_of_le (by decide)).trans BitVec.extractLsb'_append_eq_right

@[simp] theorem fieldN_xyn (a : Nibble) (x y : RegId) (n : Nibble) : fieldN (a ++ x ++ y ++ n) = n :=
  BitVec.extractLsb'_append_eq_right

/-- The two bytes of an opcode make it up again (spec/20_memory.md R53). -/
theorem wordOfBytes_extract (w : Word) : wordOfBytes (w.extractLsb' 8 8) (w.extractLsb' 0 8) = w :=
  (BitVec.extractLsb'_append_extractLsb'_eq_extractLsb' rfl).trans BitVec.extractLsb'_eq_self

theorem fieldTop_append_fieldX (w : Word) : fieldTop w ++ fieldX w = w.extractLsb' 8 8 :=
  BitVec.extractLsb'_append_extractLsb'_eq_extractLsb' rfl

theorem highByte_append_fieldY (w : Word) : w.extractLsb' 8 8 ++ fieldY w = w.extractLsb' 4 12 :=
  BitVec.extractLsb'_append_extractLsb'_eq_extractLsb' rfl

/-! A word is its own fields laid out again, by each of the three formats. -/

section
variable {w : Word} {a : Nibble} (htop : (fieldTop w).toNat = a.toNat)
include htop

theorem append_fieldNNN : a ++ fieldNNN w = w := by
  obtain rfl := BitVec.eq_of_toNat_eq htop
  exact (BitVec.extractLsb'_append_extractLsb'_eq_extractLsb' rfl).trans BitVec.extractLsb'_eq_self

theorem append_fieldX_fieldNN : a ++ fieldX w ++ fieldNN w = w := by
  obtain rfl := BitVec.eq_of_toNat_eq htop
  rw [fieldTop_append_fieldX]
  exact wordOfBytes_extract w

theorem append_fieldX_append {nn : Byte} (hnn : (fieldNN w).toNat = nn.toNat) : a ++ fieldX w ++ nn = w := by
  obtain rfl := BitVec.eq_of_toNat_eq hnn
  exact append_fieldX_fieldNN htop

theorem append_fieldX_fieldY_append {n : Nibble} (hn : (fieldN w).toNat = n.toNat) :
    a ++ fieldX w ++ fieldY w ++ n = w := by
  obtain rfl := BitVec.eq_of_toNat_eq htop
  obtain rfl := BitVec.eq_of_toNat_eq hn
  rw [fieldTop_append_fieldX, highByte_append_fieldY]
  exact (BitVec.extractLsb'_append_extractLsb'_eq_extractLsb' rfl).trans BitVec.extractLsb'_eq_self

end

/-! The decoder on an encoding. -/

theorem decode_bytesOfWord_of_ok {w : Word} {i : Instr} (h : decodeWord w = .ok i) :
    decode (bytesOfWord w) = .ok (i, []) := by
  simp [bytesOfWord, decode, wordOfBytes_extract, h]

theorem wellFormed_sys {nnn : Addr} : (Instr.sys nnn).wellFormed = true ↔ nnn ≠ 0x0E0#12 ∧ nnn ≠ 0x0EE#12 := by
  rw [Instr.wellFormed, Bool.and_eq_true, bne_iff_ne, bne_iff_ne]

/-- Off the two words that R73 takes first, family 0 is SYS. -/
theorem decodeFamily0_sys {nnn : Addr} (h : (Instr.sys nnn).wellFormed = true) :
    decodeFamily0 (0x0#4 ++ nnn) = .sys nnn := by
  obtain ⟨hcls, hret⟩ := wellFormed_sys.1 h
  have ne (op : Word) (hne : nnn ≠ fieldNNN op) : 0x0#4 ++ nnn ≠ op := by
    rintro rfl
    exact hne (fieldNNN_nnn _ _).symm
  rw [decodeFamily0, if_neg (ne 0x00E0#16 hcls), if_neg (ne 0x00EE#16 hret), fieldNNN_nnn]

theorem decodeWord_encode {i : Instr} (h : i.wellFormed = true) : decodeWord (encode i) = .ok i := by
  cases i with
  | sys nnn => simp [encode, decodeWord, decodeFamily0_sys h]
  | cls | ret => rfl
  | ldReg x y | orReg x y | andReg x y | xorReg x y | addReg x y | sub x y | shr x y | subn x y | shl x y =>
    simp [encode, decodeWord, decodeFamily8]
  | seReg x y | sneReg x y => simp [encode, decodeWord, decodeLowNibbleZero]
  | skp x | sknp x => simp [encode, decodeWord, decodeFamilyE]
  | ldVxDt x | ldVxK x | ldDtVx x | ldStVx x | addI x | ldF x | ldB x | ldMemVx x | ldVxMem x =>
    simp [encode, decodeWord, decodeFamilyF]
  | _ => simp [encode, decodeWord]

/-! The encoding of what the decoder answers. Each family's test of a sub-opcode gives back the bits that the
pattern of R74 fixes. -/

section
variable {w : Word} {i : Instr}

theorem encode_decodeFamily0 (htop : (fieldTop w).toNat = 0x0) :
    encode (decodeFamily0 w) = w ∧ (decodeFamily0 w).wellFormed = true := by
  have hw : 0x0#4 ++ fieldNNN w = w := append_fieldNNN htop
  unfold decodeFamily0
  split_ifs with hcls hret
  · exact ⟨hcls.symm, rfl⟩
  · exact ⟨hret.symm, rfl⟩
  · have read {nnn : Addr} (e : fieldNNN w = nnn) : w = 0x0#4 ++ nnn := by rw [← e, hw]
    exact ⟨hw, wellFormed_sys.2 ⟨fun e => hcls (read e), fun e => hret (read e)⟩⟩

theorem encode_of_decodeFamily8 (htop : (fieldTop w).toNat = 0x8) (h : decodeFamily8 w = .ok i) :
    encode i = w ∧ i.wellFormed = true := by
  unfold decodeFamily8 at h
  split at h <;> cases h
  all_goals
    rename_i hn
    exact ⟨append_fieldX_fieldY_append htop hn, rfl⟩

theorem encode_of_decodeFamilyE (htop : (fieldTop w).toNat = 0xE) (h : decodeFamilyE w = .ok i) :
    encode i = w ∧ i.wellFormed = true := by
  unfold decodeFamilyE at h
  split at h <;> cases h
  all_goals
    rename_i hnn
    exact ⟨append_fieldX_append htop hnn, rfl⟩

theorem encode_of_decodeFamilyF (htop : (fieldTop w).toNat = 0xF) (h : decodeFamilyF w = .ok i) :
    encode i = w ∧ i.wellFormed = true := by
  unfold decodeFamilyF at h
  split at h <;> cases h
  all_goals
    rename_i hnn
    exact ⟨append_fieldX_append htop hnn, rfl⟩

theorem decodeLowNibbleZero_ok {j : Instr} (h : decodeLowNibbleZero w j = .ok i) :
    (fieldN w).toNat = 0x0 ∧ j = i := by
  unfold decodeLowNibbleZero at h
  split at h
  case isTrue hn => cases h; exact ⟨congrArg BitVec.toNat hn, rfl⟩
  case isFalse => cases h

/-- By the family: `split` names the case of top nibble `k` as `h_(k + 1)`. -/
theorem encode_of_decodeWord (h : decodeWord w = .ok i) : encode i = w ∧ i.wellFormed = true := by
  unfold decodeWord at h
  split at h
  case h_1 htop => cases h; exact encode_decodeFamily0 htop
  case h_2 htop | h_3 htop | h_11 htop | h_12 htop => cases h; exact ⟨append_fieldNNN htop, rfl⟩
  case h_4 htop | h_5 htop | h_7 htop | h_8 htop | h_13 htop => cases h; exact ⟨append_fieldX_fieldNN htop, rfl⟩
  case h_6 htop | h_10 htop =>
    obtain ⟨hn, rfl⟩ := decodeLowNibbleZero_ok h
    exact ⟨append_fieldX_fieldY_append htop hn, rfl⟩
  case h_9 htop => exact encode_of_decodeFamily8 htop h
  case h_14 htop => cases h; exact ⟨append_fieldX_fieldY_append htop rfl, rfl⟩
  case h_15 htop => exact encode_of_decodeFamilyE htop h
  case h_16 =>
    have hlt : (fieldTop w).toNat < 16 := (fieldTop w).isLt
    have htop : (fieldTop w).toNat = 0xF := by simp only [imp_false] at *; omega
    exact encode_of_decodeFamilyF htop h

end

/-! The words that the decoder rejects (R75), by their fields. -/

theorem decodeLowNibbleZero_rejects (op : Word) (i : Instr) :
    (∃ e, decodeLowNibbleZero op i = .error e) ↔ (fieldN op).toNat ≠ 0 := by
  by_cases hn : (fieldN op).toNat = 0 <;> simp [decodeLowNibbleZero, BitVec.toNat_eq, hn]

theorem decodeFamily8_rejects (op : Word) : (∃ e, decodeFamily8 op = .error e) ↔
    (fieldN op).toNat ∈ [0x8, 0x9, 0xA, 0xB, 0xC, 0xD, 0xF] := by
  have hlt : (fieldN op).toNat < 16 := (fieldN op).isLt
  unfold decodeFamily8
  generalize (fieldN op).toNat = n at *
  interval_cases n <;> simp

theorem decodeFamilyE_rejects (op : Word) : (∃ e, decodeFamilyE op = .error e) ↔
    (fieldNN op).toNat ∉ [0x9E, 0xA1] := by
  unfold decodeFamilyE
  split <;> simp_all

theorem decodeFamilyF_rejects (op : Word) : (∃ e, decodeFamilyF op = .error e) ↔
    (fieldNN op).toNat ∉ [0x07, 0x0A, 0x15, 0x18, 0x1E, 0x29, 0x33, 0x55, 0x65] := by
  unfold decodeFamilyF
  split <;> simp_all

/-- The families 5, 8, 9, E and F are the ones with INVALID words. -/
theorem decodeWord_rejects (op : Word) : (∃ e, decodeWord op = .error e) ↔
    ((fieldTop op).toNat = 0x5 ∧ (fieldN op).toNat ≠ 0) ∨
    ((fieldTop op).toNat = 0x8 ∧ ∃ e, decodeFamily8 op = .error e) ∨
    ((fieldTop op).toNat = 0x9 ∧ (fieldN op).toNat ≠ 0) ∨
    ((fieldTop op).toNat = 0xE ∧ ∃ e, decodeFamilyE op = .error e) ∨
    ((fieldTop op).toNat = 0xF ∧ ∃ e, decodeFamilyF op = .error e) := by
  have hlt : (fieldTop op).toNat < 16 := (fieldTop op).isLt
  unfold decodeWord
  generalize (fieldTop op).toNat = top at *
  interval_cases top <;> simp [decodeLowNibbleZero_rejects]

end Sys2Proof
end

section
/-! PROOFS. The statements about the encoding (spec/30_encoding.md). -/
namespace Sys2Proof.Machine

/-- Settles O8: the two bytes make up the word again, and each instruction's word selects its own row. -/
theorem decodeOfEncode : Obligations.DecodeOfEncode :=
  fun _ h => decode_bytesOfWord_of_ok (decodeWord_encode h)

/-- Settles O9, by the family: the fields read and the sub-opcode tested are all of the word. -/
theorem encodeOfDecode : Obligations.EncodeOfDecode :=
  fun _ _ h => encode_of_decodeWord h

/-- Settles O10: the words rejected by their fields, each field as arithmetic of the word. -/
theorem rejectedWordsAreTheInvalidOnes : Obligations.RejectedWordsAreTheInvalidOnes := by
  intro w
  rw [decodeWord_rejects, decodeFamily8_rejects, decodeFamilyE_rejects, decodeFamilyF_rejects,
    fieldTop_toNat, fieldN_toNat, fieldNN_toNat]

/-- Settles O7, by running the decoder on each word. -/
theorem specWordsDecode : Obligations.SpecWordsDecode := by
  unfold Obligations.SpecWordsDecode
  decide

/-- Settles O11, field by field. -/
theorem fieldsAreTheBitsOfTheWord : Obligations.FieldsAreTheBitsOfTheWord := fun op =>
  ⟨fieldTop_toNat op, fieldX_toNat op, fieldY_toNat op, fieldN_toNat op, fieldNN_toNat op, fieldNNN_toNat op⟩

end Sys2Proof.Machine
end

section
/-! SUPPORT. The rules that the proofs about the step cycle (spec/40_step_cycle.md) share: what a Step does in each
run status, what a listed event and a free choice deliver, and the fault that a fetched word raises. -/
namespace Sys2Proof.Machine

/-! A delivered event, by the run status. -/

theorem coreStep_of_faulted {s : State} {kind : FaultKind} {op f : Word} (hr : s.run = .faulted kind op f) :
    coreStep s = finish (.fault kind op f) s := by
  simp [coreStep, hr]

theorem coreStep_of_keyWait {s : State} {x : RegId} (hr : s.run = .keyWait x) :
    coreStep s = .fault (.eventNotEnabled .step) := by
  simp [coreStep, hr]

theorem coreStep_of_fetchOutOfBounds {s : State} (hr : s.run = .running) (hpc : 0xFFF ≤ s.pc.toNat) :
    coreStep s = finish .halt s := by
  have hb : ¬ inBoundsFetch s.pc = true := fun hb => by
    have := (inBoundsFetch_iff s.pc).1 hb
    omega
  simp [coreStep, hr, hb]

theorem coreStep_of_fetchInBounds {s : State} (hr : s.run = .running) (hpc : s.pc.toNat + 1 ≤ 0xFFF) :
    coreStep s = runFetched s := by
  have hb : inBoundsFetch s.pc = true := (inBoundsFetch_iff s.pc).2 hpc
  simp [coreStep, hr, hb]

theorem keyPress_of_not_keyWait {s : State} (k : Nibble) (hr : ∀ x, s.run ≠ .keyWait x) :
    keyPress k s = .fault (.eventNotEnabled (.keyPress k)) := by
  unfold keyPress
  split
  next x hx => exact absurd hx (hr x)
  all_goals rfl

/-! The host's free choice (logs 2 and 3). -/

theorem chosenEvent_some_of_keyWait {r : RunStatus} {x : RegId} (hr : r = .keyWait x) (k : Nibble) :
    chosenEvent r (some k) = .keyPress k := by
  subst hr; rfl

theorem chosenEvent_some_of_not_keyWait {r : RunStatus} (hr : ∀ x, r ≠ .keyWait x) (k : Nibble) :
    chosenEvent r (some k) = .step := by
  cases r with
  | keyWait x => exact absurd rfl (hr x)
  | running | faulted _ _ _ => rfl

/-- With nothing listed, the host's move is the step that has the chosen event listed and one free value drawn. -/
theorem hostMoveWith_eq_step_chosen {s : State} (choice : Option Nibble) (h : s.events = []) :
    hostMoveWith choice s = step { s with events := [chosenEvent s.run choice], draws := s.draws + 1 } := by
  have hs : s.draw = { s with events := [], draws := s.draws + 1 } := by rw [← h]; rfl
  rw [hostMoveWith_of_unlisted choice h, hs]
  exact Eq.symm (step_of_listed rfl)

/-! The fetched word. -/

theorem decodeWord_of_decode_fetchBytes {s : State} {i : Instr} {rest : List Byte}
    (h : decode s.fetchBytes = .ok (i, rest)) : decodeWord s.fetchOpcode = .ok i := by
  rw [decode_fetchBytes] at h
  cases hd : decodeWord s.fetchOpcode with
  | ok j => rw [hd] at h; cases h; rfl
  | error e => rw [hd] at h; cases h

/-- A listed Step of a Running core on an INVALID word raises InvalidOpcode (spec/40_step_cycle.md R104). -/
theorem step_of_rejected {s : State} {es : List HostEvent} {e : DecodeError} (hr : s.run = .running)
    (he : s.events = .step :: es) (hpc : s.pc.toNat + 1 ≤ 0xFFF) (hd : decodeWord s.fetchOpcode = .error e) :
    step s = takeFault .invalidOpcode s.fetchOpcode (s.setEvents es).advance := by
  have hcore : coreStep (s.setEvents es) = runFetched (s.setEvents es) := coreStep_of_fetchInBounds hr hpc
  rw [step_of_listed he]
  refine hcore.trans ?_
  rcases runFetched_cases (s.setEvents es) with ⟨i, hi, -⟩ | ⟨_, -, hrun⟩
  · cases hi.symm.trans hd
  · exact hrun

/-- A listed Step of a Running core on a SYS word raises InvalidOpcode with that word (spec/40_step_cycle.md R104). -/
theorem step_of_sys {s : State} {es : List HostEvent} {nnn : Addr} (hr : s.run = .running)
    (he : s.events = .step :: es) (hpc : s.pc.toNat + 1 ≤ 0xFFF) (hd : decodeWord s.fetchOpcode = .ok (.sys nnn)) :
    step s = takeFault .invalidOpcode s.fetchOpcode (s.setEvents es).advance := by
  obtain ⟨hop, -⟩ := encode_of_decodeWord hd
  rw [step_of_fetched hr he hpc hd, ← hop]
  rfl

/-- The record of a fault taken after the fetch holds the fetch address (spec/60_exceptions.md R201). -/
theorem takeFault_advance (kind : FaultKind) (op : Word) (s : State) :
    takeFault kind op s.advance =
      .next { s with pc := s.pc + 2, run := .faulted kind op s.pc, status := some (.fault kind op s.pc) } := by
  have hf : s.advance.pc - 2 = s.pc := BitVec.add_sub_cancel s.pc 2
  rw [takeFault_eq, hf]
  rfl

end Sys2Proof.Machine
end

section
/-! PROOFS. The statements about the step cycle (spec/40_step_cycle.md). -/
namespace Sys2Proof.Machine

/-- Settles O57: a fault that is raised writes its record and the status, and a completed instruction leaves the core
Running or in a key wait. -/
theorem statusOfEachInstruction : Obligations.StatusOfEachInstruction := by
  intro i s t hr h
  rcases exec_cases i s with ⟨kind, -, hx⟩ | ⟨u, hw, hx⟩
  · cases hx.symm.trans h
    exact .inl ⟨_, _, _, rfl, rfl⟩
  · cases hx.symm.trans h
    refine .inr ⟨fun kind op f hf => ?_, rfl⟩
    rw [State.setStatus_run] at hf
    rcases Writes_run hw with hu | ⟨x, -, hu⟩
    · cases hf.symm.trans (hu.trans hr)
    · cases hf.symm.trans hu

/-- Settles O58: raising a fault and completing both answer a next state. -/
theorem everyInstructionAnswers : Obligations.EveryInstructionAnswers := by
  intro i s
  rcases exec_cases i s with ⟨kind, -, hx⟩ | ⟨u, -, hx⟩
  · exact ⟨_, hx.trans (raise_eq kind i s)⟩
  · exact ⟨_, hx.trans (finish_eq _ u)⟩

/-- Settles O2: the two bytes at pc are the word that the Step decodes. -/
theorem stepRunsTheDecodedInstruction : Obligations.StepRunsTheDecodedInstruction :=
  fun _ _ _ _ hr he hpc hd _ => step_of_fetched hr he hpc (decodeWord_of_decode_fetchBytes hd)

/-- Settles O3: the move delivers the chosen event as a listed one, and each enabled event is some choice. -/
theorem unlistedEventIsAnyEnabledOne : Obligations.UnlistedEventIsAnyEnabledOne := by
  intro s h
  refine ⟨rfl, hostMoveWith_eq_step_chosen none h, fun hr k => ?_, fun x hr k => ?_⟩ <;>
    rw [hostMoveWith_eq_step_chosen (some k) h]
  · rw [chosenEvent_some_of_not_keyWait hr k]
  · rw [chosenEvent_some_of_keyWait hr k]

/-- Settles O4: the bounds check comes before the fetch. -/
theorem fetchOutOfBoundsHalts : Obligations.FetchOutOfBoundsHalts := by
  intro s es hr he hpc
  rw [step_of_listed he]
  exact coreStep_of_fetchOutOfBounds hr hpc

/-- Settles O5: a Step reads the record that the run status holds. -/
theorem faultedStepRepeatsTheFault : Obligations.FaultedStepRepeatsTheFault := by
  intro s es kind op f hr he
  rw [step_of_listed he]
  exact coreStep_of_faulted hr

/-- Settles O6: an INVALID word raises the fault at decode, a SYS at execution, both after the fetch. -/
theorem invalidWordRaisesInvalidOpcode : Obligations.InvalidWordRaisesInvalidOpcode := by
  intro s es op hr he hpc hop hd
  have hword : op = s.fetchOpcode := hop
  subst hword
  have hstep : step s = takeFault .invalidOpcode s.fetchOpcode (s.setEvents es).advance := by
    rcases hd with ⟨e, hd⟩ | ⟨nnn, hd⟩
    · exact step_of_rejected hr he hpc hd
    · exact step_of_sys hr he hpc hd
  exact hstep.trans (takeFault_advance _ _ _)

/-- Settles O60: a Step stops in a key wait, a KeyPress in every other run status. -/
theorem disabledEventsStop : Obligations.DisabledEventsStop := by
  refine ⟨fun s x es hr he => ?_, fun s k es hr he => ?_⟩ <;> rw [step_of_listed he]
  · exact coreStep_of_keyWait hr
  · exact keyPress_of_not_keyWait k hr

end Sys2Proof.Machine
end

section
/-! SUPPORT. The rules that the proofs about control flow (spec/41_flow.md) share: the words that a fault of SYS and
of CALL records, the fault's record by the fetch address, and a skip with its frame. -/
namespace Sys2Proof.Machine

/-- The word 0nnn is nnn itself. -/
theorem encode_sys (nnn : Addr) : encode (.sys nnn) = nnn.setWidth 16 := by
  rw [BitVec.setWidth_eq_append (by decide)]
  rfl

/-- The word 2nnn as a number. -/
theorem encode_call (nnn : Addr) : encode (.call nnn) = BitVec.ofNat 16 (0x2000 + nnn.toNat) := by
  apply BitVec.eq_of_toNat_eq
  have hlt : nnn.toNat < 2 ^ 12 := nnn.isLt
  rw [encode, BitVec.toNat_append, ← Nat.shiftLeft_add_eq_or_of_lt hlt, BitVec.toNat_ofNat, BitVec.toNat_ofNat]
  omega

/-- An instruction that faults records its own word and the address it was fetched from (spec/60_exceptions.md
R201). -/
theorem raise_of_fetchedAt {kind : FaultKind} {i : Instr} {s : State} {op f : Word} (hop : encode i = op)
    (hpc : s.pc = f + 2) :
    raise kind i s = .next { s with run := .faulted kind op f, status := some (.fault kind op f) } := by
  have hf : s.pc - 2 = f := by rw [hpc, BitVec.add_sub_cancel]
  rw [raise_eq, hop, hf]

/-- A skip writes pc alone, taken or not (spec/41_flow.md R120). -/
theorem finish_skipIf (st : Status) (s : State) (taken : Bool) :
    finish st (s.skipIf taken) =
      .next { s with pc := if taken then s.pc + 2 else s.pc, status := some st } := by
  cases taken <;> rfl

end Sys2Proof.Machine
end

section
/-! PROOFS. The statements about control flow (spec/41_flow.md). -/
namespace Sys2Proof.Machine

open Sys2Proof.Laws

/-- Settles O12: SYS raises whatever the state, with the word 0nnn. -/
theorem sysRaisesInvalidOpcode : Obligations.SysRaisesInvalidOpcode := by
  intro nnn f s _ _ hpc
  exact ⟨EncodeFixedBits.sys nnn, raise_of_fetchedAt (encode_sys nnn) hpc⟩

/-- Settles O13, by the stack: a last address to take, or none. -/
theorem retPopsOrUnderflows : Obligations.RetPopsOrUnderflows := by
  refine ⟨rfl, fun s l w hl => ?_, fun s f hempty hpc => ?_⟩
  · exact execRet_of_append hl
  · exact (execRet_of_empty hempty).trans (raise_of_fetchedAt rfl hpc)

/-- Settles O14: the zero extension of nnn is what pc takes. -/
theorem jpSetsPc : Obligations.JpSetsPc :=
  fun nnn s => ⟨EncodeFixedBits.jp nnn, finish_eq .ok (s.setPc (zextAddr nnn))⟩

/-- Settles O15, by the room on the stack. -/
theorem callPushesOrOverflows : Obligations.CallPushesOrOverflows := by
  intro nnn s
  refine ⟨EncodeFixedBits.call nnn, fun hroom => ?_, fun f hfull hpc => ?_⟩
  · exact execCall_of_room nnn hroom
  · have hnoRoom : ¬ s.stack.length < stackCapacity := by rw [hfull]; decide
    exact (execCall_of_full nnn hnoRoom).trans (raise_of_fetchedAt (encode_call nnn) hpc)

/-- Settles O16: each is a skip on its own comparison. -/
theorem skipsOnAByte : Obligations.SkipsOnAByte := by
  intro x nn s
  refine ⟨EncodeFixedBits.seImm x nn, EncodeFixedBits.sneImm x nn, ?_, ?_⟩
  · exact (finish_skipIf .ok s (s.getV x == nn)).trans (by simp)
  · exact (finish_skipIf .ok s (s.getV x != nn)).trans (by simp)

/-- Settles O17: each is a skip on its own comparison, and the rows of the two families fix the low nibble, so that
every other word of theirs is INVALID. -/
theorem skipsOnARegister : Obligations.SkipsOnARegister := by
  refine ⟨fun x y s => ⟨EncodeFixedBits.seReg x y, EncodeFixedBits.sneReg x y, ?_, ?_⟩,
    fun s es op hr he hpc hop hfamily hlow => ?_⟩
  · exact (finish_skipIf .ok s (s.getV x == s.getV y)).trans (by simp)
  · exact (finish_skipIf .ok s (s.getV x != s.getV y)).trans (by simp)
  · have hinvalid : ∃ e, decodeWord op = .error e := by
      refine (rejectedWordsAreTheInvalidOnes op).2 ?_
      rcases hfamily with htop | htop
      · exact .inl ⟨htop, hlow⟩
      · exact .inr (.inr (.inl ⟨htop, hlow⟩))
    exact invalidWordRaisesInvalidOpcode s es op hr he hpc hop (.inl hinvalid)

/-- Settles O18: the sum of a byte and twelve bits fits a word. -/
theorem jpV0SetsPcToTheExactSum : Obligations.JpV0SetsPcToTheExactSum :=
  fun nnn s => ⟨EncodeFixedBits.jpV0 nnn, _, finish_eq .ok _, zextByte_add_zextAddr_toNat (s.getV 0x0#4) nnn, rfl⟩

end Sys2Proof.Machine
end

section
/-! SUPPORT. The rules that the proofs about register arithmetic (spec/42_alu.md) share: what a write of Vx, and a write
of Vx and VF in either order, leave behind, and each flagged operation's result and flag as numbers. -/
namespace Sys2Proof.Machine

/-- A plain result is seen in Vx, whatever x is, and nowhere else (42_alu.md R140). -/
theorem writeResult_next (x : RegId) (r : Byte) (s : State) :
    ∃ t, writeResult x r s = .next t ∧ t.getV x = r ∧ KeepsRegs [x] s t ∧
      t = { s with V := t.V, status := some .ok } :=
  have ⟨hregs, _⟩ := (OnlyRegsAndPc.refl [x] s).setV (List.mem_singleton_self x) r
  ⟨_, finish_eq .ok (s.setV x r), State.setV_getV_same s x r, hregs, rfl⟩

theorem writeResultAndFlag_getV_result {o : Config.VfWriteOrder} {x : RegId} (h : x ≠ vf ∨ o = .resultLast)
    (r : Byte) (f : Bool) (s : State) : (writeResultAndFlag o x r f s).getV x = r := by
  rcases h with hx | rfl
  · simp [writeResultAndFlag_getV, hx]
  · simp [writeResultAndFlag_getV]

theorem writeResultAndFlag_getV_flag {o : Config.VfWriteOrder} {x : RegId} (h : x ≠ vf ∨ o = .flagLast)
    (r : Byte) (f : Bool) (s : State) : (writeResultAndFlag o x r f s).getV vf = flagByte f := by
  rw [writeResultAndFlag_getV, if_pos ⟨rfl, h.symm⟩]

/-- A result and a flag are seen in Vx and VF, for x = F the last of the two alone, and nowhere else (10_state.md
R25). -/
theorem finish_writeResultAndFlag_next (o : Config.VfWriteOrder) (x : RegId) (r : Byte) (f : Bool) (s : State) :
    ∃ t, finish .ok (writeResultAndFlag o x r f s) = .next t ∧ (x ≠ vf ∨ o = .resultLast → t.getV x = r) ∧
      (x ≠ vf ∨ o = .flagLast → t.getV vf = flagByte f) ∧ KeepsRegs [x, vf] s t ∧
      t = { s with V := t.V, status := some .ok } := by
  obtain ⟨hregs, -⟩ := (OnlyRegsAndPc.refl [x, vf] s).writeResultAndFlag (x := x) (by simp) (by simp) o r f
  refine ⟨_, finish_eq .ok _, fun h => writeResultAndFlag_getV_result h r f s,
    fun h => writeResultAndFlag_getV_flag h r f s, hregs, ?_⟩
  rw [writeResultAndFlag_eq]
  rfl

theorem flagByte_decide (p : Prop) [Decidable p] : flagByte (decide p) = if p then 1 else 0 := by
  by_cases h : p <;> simp [flagByte, h]

theorem flagByte_toNat (b : Bool) : (flagByte b).toNat = b.toNat := by
  cases b <;> rfl

theorem shiftOperand_eq (src : Config.ShiftSource) (x y : RegId) (s : State) :
    shiftOperand src x y s = if src = .vx then s.getV x else s.getV y := by
  cases src <;> rfl

theorem shiftedOutRight_toNat (v : Byte) : (shiftedOutRight v).toNat = v.toNat % 2 := by
  rw [shiftedOutRight, BitVec.getLsbD, Nat.toNat_testBit, pow_zero, Nat.div_one]

theorem shiftedOutLeft_toNat (v : Byte) : (shiftedOutLeft v).toNat = v.toNat / 128 := by
  have hv : v.toNat < 256 := v.isLt
  rw [shiftedOutLeft, BitVec.getLsbD, Nat.toNat_testBit]
  omega

/-- 8xy4 in numbers (42_alu.md R147). -/
theorem addRegWith_next (o : Config.VfWriteOrder) (x y : RegId) (s : State) :
    ∃ t, addRegWith o x y s = .next t ∧
      (x ≠ vf ∨ o = .resultLast → (t.getV x).toNat = ((s.getV x).toNat + (s.getV y).toNat) % 256) ∧
      (x ≠ vf ∨ o = .flagLast → t.getV vf = if (s.getV x).toNat + (s.getV y).toNat > 255 then 1 else 0) ∧
      KeepsRegs [x, vf] s t ∧ t = { s with V := t.V, status := some .ok } := by
  obtain ⟨t, ht, hr, hf, hframe⟩ :=
    finish_writeResultAndFlag_next o x (s.getV x + s.getV y) (carryFlag (s.getV x) (s.getV y)) s
  refine ⟨t, ht, fun h => ?_, fun h => ?_, hframe⟩
  · rw [hr h, BitVec.toNat_add]
  · rw [hf h, carryFlag, flagByte_decide]

/-- 8xy5 and 8xy7 in numbers (42_alu.md R148, R150). -/
theorem subtractWith_next (o : Config.VfWriteOrder) (x : RegId) (a b : Byte) (s : State) :
    ∃ t, subtractWith o x a b s = .next t ∧
      (x ≠ vf ∨ o = .resultLast → (t.getV x).toNat = (a.toNat + 256 - b.toNat) % 256) ∧
      (x ≠ vf ∨ o = .flagLast → t.getV vf = if a.toNat ≥ b.toNat then 1 else 0) ∧
      KeepsRegs [x, vf] s t ∧ t = { s with V := t.V, status := some .ok } := by
  obtain ⟨t, ht, hr, hf, hframe⟩ := finish_writeResultAndFlag_next o x (a - b) (notBorrowFlag a b) s
  refine ⟨t, ht, fun h => ?_, fun h => ?_, hframe⟩
  · rw [hr h]
    bv_omega
  · rw [hf h, notBorrowFlag, flagByte_decide]

/-- 8xy6 in numbers (42_alu.md R149). -/
theorem shrWith_next (src : Config.ShiftSource) (o : Config.VfWriteOrder) (x y : RegId) (s : State) :
    ∃ t, shrWith src o x y s = .next t ∧
      (x ≠ vf ∨ o = .resultLast → (t.getV x).toNat = (shiftOperand src x y s).toNat / 2) ∧
      (x ≠ vf ∨ o = .flagLast → (t.getV vf).toNat = (shiftOperand src x y s).toNat % 2) ∧
      KeepsRegs [x, vf] s t ∧ t = { s with V := t.V, status := some .ok } := by
  obtain ⟨t, ht, hr, hf, hframe⟩ := finish_writeResultAndFlag_next o x (shiftOperand src x y s >>> 1)
    (shiftedOutRight (shiftOperand src x y s)) s
  refine ⟨t, ht, fun h => ?_, fun h => ?_, hframe⟩
  · rw [hr h, BitVec.toNat_ushiftRight, Nat.shiftRight_one]
  · rw [hf h, flagByte_toNat, shiftedOutRight_toNat]

/-- 8xyE in numbers (42_alu.md R151). -/
theorem shlWith_next (src : Config.ShiftSource) (o : Config.VfWriteOrder) (x y : RegId) (s : State) :
    ∃ t, shlWith src o x y s = .next t ∧
      (x ≠ vf ∨ o = .resultLast → (t.getV x).toNat = (shiftOperand src x y s).toNat * 2 % 256) ∧
      (x ≠ vf ∨ o = .flagLast → (t.getV vf).toNat = (shiftOperand src x y s).toNat / 128) ∧
      KeepsRegs [x, vf] s t ∧ t = { s with V := t.V, status := some .ok } := by
  obtain ⟨t, ht, hr, hf, hframe⟩ := finish_writeResultAndFlag_next o x (shiftOperand src x y s <<< 1)
    (shiftedOutLeft (shiftOperand src x y s)) s
  refine ⟨t, ht, fun h => ?_, fun h => ?_, hframe⟩
  · rw [hr h, BitVec.toNat_shiftLeft, Nat.shiftLeft_eq, pow_one]
  · rw [hf h, flagByte_toNat, shiftedOutLeft_toNat]

end Sys2Proof.Machine
end

section
/-! PROOFS. The statements about register arithmetic (spec/42_alu.md). -/
namespace Sys2Proof.Machine

open Sys2Proof.Laws

/-- Settles O22: exec is the sum with the flag last; either order shows the write that x = F does not cover. -/
theorem addsRegistersWithCarry : Obligations.AddsRegistersWithCarry := by
  intro x y s
  refine ⟨EncodeFixedBits.addReg x y, ?_, ?_⟩
  · obtain ⟨t, ht, hr, hf, hframe⟩ := addRegWith_next .flagLast x y s
    exact ⟨t, ht, fun hx => hr (.inl hx), hf (.inr rfl), hframe⟩
  · obtain ⟨t, ht, hr, hf, hframe⟩ := addRegWith_next .resultLast x y s
    exact ⟨t, ht, hr (.inr rfl), fun hx => hf (.inl hx), hframe⟩

/-- Settles O23: SUB and SUBN are one subtraction with the operands in either order. -/
theorem subtractsWithNotBorrow : Obligations.SubtractsWithNotBorrow := by
  intro x y s
  refine ⟨EncodeFixedBits.sub x y, EncodeFixedBits.subn x y, ?_, ?_, fun a b => ?_⟩
  · obtain ⟨t, ht, hr, hf, hframe⟩ := subtractWith_next .flagLast x (s.getV x) (s.getV y) s
    exact ⟨t, ht, fun hx => hr (.inl hx), hf (.inr rfl), hframe⟩
  · obtain ⟨t, ht, hr, hf, hframe⟩ := subtractWith_next .flagLast x (s.getV y) (s.getV x) s
    exact ⟨t, ht, fun hx => hr (.inl hx), hf (.inr rfl), hframe⟩
  · obtain ⟨t, ht, hr, hf, hframe⟩ := subtractWith_next .resultLast x a b s
    exact ⟨t, ht, hr (.inr rfl), fun hx => hf (.inl hx), hframe⟩

/-- Settles O24: the value shifted is the operand of either shift. -/
theorem shiftsByOne : Obligations.ShiftsByOne := by
  intro x y s
  refine ⟨EncodeFixedBits.shr x y, EncodeFixedBits.shl x y, rfl, rfl, fun src order v hv => ?_⟩
  rw [← shiftOperand_eq] at hv
  subst hv
  exact ⟨shrWith_next src order x y s, shlWith_next src order x y s⟩

/-- Settles O19: each is a plain result. -/
theorem loadsARegister : Obligations.LoadsARegister := fun x y nn s =>
  ⟨EncodeFixedBits.ldImm x nn, EncodeFixedBits.ldReg x y, writeResult_next x nn s, writeResult_next x (s.getV y) s⟩

/-- Settles O20: the result is the sum of two bytes. -/
theorem addsAByteWithoutFlag : Obligations.AddsAByteWithoutFlag := by
  intro x nn s
  obtain ⟨t, ht, hr, hframe⟩ := writeResult_next x (s.getV x + nn) s
  refine ⟨EncodeFixedBits.addImm x nn, t, ht, ?_, hframe⟩
  rw [hr, BitVec.toNat_add]

/-- Settles O21: the bits of each plain result. -/
theorem logicWithoutFlag : Obligations.LogicWithoutFlag := by
  intro x y s
  refine ⟨EncodeFixedBits.orReg x y, EncodeFixedBits.andReg x y, EncodeFixedBits.xorReg x y, ?_, ?_, ?_⟩
  · obtain ⟨t, ht, hr, hframe⟩ := writeResult_next x (s.getV x ||| s.getV y) s
    exact ⟨t, ht, fun k => by rw [hr, BitVec.getLsbD_or], hframe⟩
  · obtain ⟨t, ht, hr, hframe⟩ := writeResult_next x (s.getV x &&& s.getV y) s
    exact ⟨t, ht, fun k => by rw [hr, BitVec.getLsbD_and], hframe⟩
  · obtain ⟨t, ht, hr, hframe⟩ := writeResult_next x (s.getV x ^^^ s.getV y) s
    exact ⟨t, ht, fun k => by rw [hr, BitVec.getLsbD_xor], hframe⟩

/-- Settles O25: a plain result after the draw, which moves the counter of draws alone. -/
theorem randomByteIsMasked : Obligations.RandomByteIsMasked := by
  intro x nn s
  refine ⟨EncodeFixedBits.rnd x nn, ?_, fun drawn => writeResult_next x (drawn &&& nn) s⟩
  obtain ⟨t, ht, hr, hframe⟩ := writeResult_next x (Config.rand s.draws &&& nn) s.draw
  refine ⟨t, ht, hr, fun k hk => ?_, hframe⟩
  rw [hr, BitVec.getLsbD_and, hk, Bool.and_false]

end Sys2Proof.Machine
end

section
/-! SUPPORT. The rules that the proofs about the address register and memory (spec/43_index_memory.md) share: the words
that their faults record, what a store leaves outside its range, and each parameterised operation with its range in
memory and past its top. -/
namespace Sys2Proof.Machine

/-- A word of family F as a number (spec/30_encoding.md R71). -/
theorem familyF_word (x : RegId) (nn : Byte) :
    0xF#4 ++ x ++ nn = BitVec.ofNat 16 (0xF000 + nn.toNat + x.toNat * 0x100) := by
  apply BitVec.eq_of_toNat_eq
  have hx : x.toNat < 2 ^ 4 := x.isLt
  have hnn : nn.toNat < 2 ^ 8 := nn.isLt
  rw [BitVec.toNat_append, BitVec.toNat_append, ← Nat.shiftLeft_add_eq_or_of_lt hnn,
    ← Nat.shiftLeft_add_eq_or_of_lt hx, Nat.shiftLeft_eq, Nat.shiftLeft_eq, BitVec.toNat_ofNat, BitVec.toNat_ofNat]
  omega

/-- The word Fx33 as a number. -/
theorem encode_ldB (x : RegId) : encode (.ldB x) = BitVec.ofNat 16 (0xF033 + x.toNat * 0x100) :=
  familyF_word x 0x33#8

/-- The word Fx55 as a number. -/
theorem encode_ldMemVx (x : RegId) : encode (.ldMemVx x) = BitVec.ofNat 16 (0xF055 + x.toNat * 0x100) :=
  familyF_word x 0x55#8

/-- The word Fx65 as a number. -/
theorem encode_ldVxMem (x : RegId) : encode (.ldVxMem x) = BitVec.ofNat 16 (0xF065 + x.toNat * 0x100) :=
  familyF_word x 0x65#8

theorem Memory.read_writeBytes_of_outside (m : Memory) {a c : Nat} {bs : List Byte}
    (h : c < a ∨ a + bs.length ≤ c) : (m.writeBytes a bs).read c = m.read c := by
  by_contra hne
  obtain ⟨hlo, hhi, -⟩ := Memory.range_of_read_writeBytes_ne hne
  omega

theorem Memory.readBytes_getD (m : Memory) (a : Nat) {n k : Nat} (b : Byte) (h : k < n) :
    (m.readBytes a n).getD k b = m.read (a + k) := by
  rw [List.getD_eq_getElem?_getD, Memory.readBytes_getElem?, if_pos h]
  rfl

/-- The k-th of the registers listed from V0 on is Vk. -/
theorem State.getRegs_zero_getElem? (s : State) {k : RegId} {n : Nat} (h : k.toNat < n) :
    (s.getRegs 0 n)[k.toNat]? = some (s.getV k) := by
  rw [State.getRegs_getElem?, if_pos h, Nat.zero_add, BitVec.ofNat_toNat, BitVec.setWidth_eq]

/-- V0..Vx fit in memory from I on (spec/20_memory.md R54(b)). -/
theorem inBoundsRange_regCount_iff (a : Nat) (x : RegId) :
    inBoundsRange a (regCount x) = true ↔ a + x.toNat ≤ 0xFFF := by
  rw [inBoundsRange_iff, regCount]
  omega

/-! I after a bulk access (spec/43_index_memory.md R167). -/

theorem bumpI_eq (increment : Bool) (x : RegId) (s : State) :
    bumpI increment x s = { s with I := (bumpI increment x s).I } := by
  cases increment <;> rfl

theorem bumpI_readByte (increment : Bool) (x : RegId) (s : State) (a : Nat) :
    (bumpI increment x s).readByte a = s.readByte a := by
  rw [bumpI_eq]; rfl

theorem bumpI_getV (increment : Bool) (x : RegId) (s : State) (j : RegId) :
    (bumpI increment x s).getV j = s.getV j := by
  rw [bumpI_eq]; rfl

theorem bumpI_false (x : RegId) (s : State) : bumpI false x s = s := rfl

theorem bumpI_true_I_toNat (x : RegId) (s : State) :
    (bumpI true x s).I.toNat = (s.I.toNat + x.toNat + 1) % 0x1000 := by
  simp only [bumpI, ↓reduceIte, State.setI_I, BitVec.toNat_ofNat]
  omega

/-! The accesses by their range. -/

/-- Fx55 with its range in memory, under either LOADSTORE_INCREMENT_I (spec/43_index_memory.md R166, R167). -/
theorem ldMemVxWith_next (increment : Bool) {x : RegId} {s : State} (h : s.I.toNat + x.toNat ≤ 0xFFF) :
    ∃ t, ldMemVxWith increment x s = .next t ∧ t.I = (bumpI increment x s).I ∧
      (∀ k : RegId, k.toNat ≤ x.toNat → t.readByte (s.I.toNat + k.toNat) = s.getV k) ∧
      (∀ a, a < s.I.toNat ∨ s.I.toNat + x.toNat < a → t.readByte a = s.readByte a) ∧
      t = { s with mem := t.mem, I := t.I, status := some .ok } := by
  have hin := (inBoundsRange_regCount_iff s.I.toNat x).2 h
  refine ⟨_, if_pos hin, ?_, fun k hk => ?_, fun a ha => ?_, ?_⟩
  · cases increment <;> rfl
  · rw [State.setStatus_readByte, bumpI_readByte]
    refine Memory.read_writeBytes_of_getElem? s.mem ?_ (State.getRegs_zero_getElem? s (Nat.lt_succ_of_le hk))
    rwa [State.getRegs_length]
  · rw [State.setStatus_readByte, bumpI_readByte]
    refine Memory.read_writeBytes_of_outside s.mem ?_
    rw [State.getRegs_length, regCount]
    omega
  · rw [bumpI_eq]; rfl

/-- Fx65 with its range in memory, under either LOADSTORE_INCREMENT_I (spec/43_index_memory.md R168, R167). -/
theorem ldVxMemWith_next (increment : Bool) {x : RegId} {s : State} (h : s.I.toNat + x.toNat ≤ 0xFFF) :
    ∃ t, ldVxMemWith increment x s = .next t ∧ t.I = (bumpI increment x s).I ∧
      (∀ k : RegId, t.getV k = if k.toNat ≤ x.toNat then s.readByte (s.I.toNat + k.toNat) else s.getV k) ∧
      t = { s with V := t.V, I := t.I, status := some .ok } := by
  have hin := (inBoundsRange_regCount_iff s.I.toNat x).2 h
  have hlen : (s.mem.readBytes s.I.toNat (regCount x)).length = x.toNat + 1 := Memory.readBytes_length _ _ _
  refine ⟨_, if_pos hin, ?_, fun k => ?_, ?_⟩
  · cases increment <;> rw [State.setRegs_eq] <;> rfl
  · rw [State.setStatus_getV, bumpI_getV, State.setRegs_getV _ _ _ (by rw [hlen]; omega), hlen]
    by_cases hk : k.toNat ≤ x.toNat
    · rw [if_pos hk, if_pos (by omega), Nat.sub_zero]
      exact Memory.readBytes_getD s.mem s.I.toNat 0 (Nat.lt_succ_of_le hk)
    · rw [if_neg hk, if_neg (by omega)]
  · rw [bumpI_eq, State.setRegs_eq]; rfl

theorem execLdMemVx_of_outOfBounds {x : RegId} {s : State} (h : 0xFFF < s.I.toNat + x.toNat) :
    execLdMemVx x s = raise .memoryBounds (.ldMemVx x) s :=
  if_neg fun hin => h.not_ge ((inBoundsRange_regCount_iff s.I.toNat x).1 hin)

theorem execLdVxMem_of_outOfBounds {x : RegId} {s : State} (h : 0xFFF < s.I.toNat + x.toNat) :
    execLdVxMem x s = raise .memoryBounds (.ldVxMem x) s :=
  if_neg fun hin => h.not_ge ((inBoundsRange_regCount_iff s.I.toNat x).1 hin)

theorem execLdB_of_outOfBounds {s : State} (x : RegId) (h : 0xFFF < s.I.toNat + 2) :
    execLdB x s = raise .memoryBounds (.ldB x) s := by
  refine if_neg fun hin => ?_
  have := (inBoundsRange_iff s.I.toNat 3).1 hin
  omega

/-! The font address. -/

theorem fontDigit_lowNibble_toNat (v : Byte) : (fontDigit .lowNibble v).toNat = v.toNat % 16 := by
  rw [fontDigit, BitVec.toNat_and]
  exact Nat.and_two_pow_sub_one_eq_mod v.toNat 4

/-- Five bytes a glyph, from address 0 on (spec/43_index_memory.md R164). -/
theorem fontAddress_toNat (mask : Config.FontDigitMask) (v : Byte) :
    (fontAddress mask v).toNat = 5 * (fontDigit mask v).toNat := by
  have hlt : (fontDigit mask v).toNat < 256 := (fontDigit mask v).isLt
  rw [fontAddress, BitVec.toNat_ofNat, Config.fontOrigin, Config.fontHeight]
  omega

end Sys2Proof.Machine
end

section
/-! PROOFS. The statements about the address register and memory (spec/43_index_memory.md). -/
namespace Sys2Proof.Machine

open Sys2Proof.Laws

/-- Settles O30: the three digits are the bytes written from I on. -/
theorem storesDecimalDigits : Obligations.StoresDecimalDigits := by
  intro x s
  refine ⟨EncodeFixedBits.ldB x, fun hfit => ?_, fun f hpast hpc => ?_⟩
  · have hin : inBoundsRange s.I.toNat 3 = true := inBoundsRange_of_add_le (by omega)
    have digit {k : Nat} {b : Byte} (hk : (bcdDigits (s.getV x))[k]? = some b) :
        (s.mem.writeBytes s.I.toNat (bcdDigits (s.getV x))).read (s.I.toNat + k) = b :=
      Memory.read_writeBytes_of_getElem? s.mem hin hk
    have hv : (s.getV x).toNat < 256 := (s.getV x).isLt
    refine ⟨_, execLdB_of_inBounds x hin, ?_, ?_, ?_, fun a ha => ?_, rfl⟩
    · refine (congrArg BitVec.toNat (digit (k := 0) rfl)).trans ?_
      rw [BitVec.toNat_ofNat]; omega
    · refine (congrArg BitVec.toNat (digit (k := 1) rfl)).trans ?_
      rw [BitVec.toNat_ofNat]; omega
    · refine (congrArg BitVec.toNat (digit (k := 2) rfl)).trans ?_
      rw [BitVec.toNat_ofNat]; omega
    · exact Memory.read_writeBytes_of_outside s.mem ha
  · exact (execLdB_of_outOfBounds x hpast).trans (raise_of_fetchedAt (encode_ldB x) hpc)

/-- Settles O31, by the range; the two increments differ in I alone. -/
theorem storesRegisters : Obligations.StoresRegisters := by
  intro x s
  refine ⟨EncodeFixedBits.ldMemVx x, fun hfit => ⟨?_, ?_⟩, fun f hpast hpc => ?_⟩
  · obtain ⟨t, ht, hI, hstored, hkept, hframe⟩ := ldMemVxWith_next false hfit
    rw [hI, bumpI_false] at hframe
    exact ⟨t, ht, hstored, hkept, hframe⟩
  · obtain ⟨t, ht, hI, hrest⟩ := ldMemVxWith_next true hfit
    exact ⟨t, ht, by rw [hI, bumpI_true_I_toNat], hrest⟩
  · exact (execLdMemVx_of_outOfBounds hpast).trans (raise_of_fetchedAt (encode_ldMemVx x) hpc)

/-- Settles O32, by the range; the two increments differ in I alone. -/
theorem loadsRegisters : Obligations.LoadsRegisters := by
  intro x s
  refine ⟨EncodeFixedBits.ldVxMem x, fun hfit => ⟨?_, ?_⟩, fun f hpast hpc => ?_⟩
  · obtain ⟨t, ht, hI, hloaded, hframe⟩ := ldVxMemWith_next false hfit
    rw [hI, bumpI_false] at hframe
    exact ⟨t, ht, hloaded, hframe⟩
  · obtain ⟨t, ht, hI, hrest⟩ := ldVxMemWith_next true hfit
    exact ⟨t, ht, by rw [hI, bumpI_true_I_toNat], hrest⟩
  · exact (execLdVxMem_of_outOfBounds hpast).trans (raise_of_fetchedAt (encode_ldVxMem x) hpc)

/-- Settles O27: the zero extension of nnn is what I takes. -/
theorem loadsTheAddressRegister : Obligations.LoadsTheAddressRegister :=
  fun nnn s => ⟨EncodeFixedBits.ldI nnn, finish_eq .ok (s.setI (zextAddr nnn))⟩

/-- Settles O28: the flag is written last, and both are computed from the values before the writes. -/
theorem addsToTheAddressRegister : Obligations.AddsToTheAddressRegister := by
  intro x s
  refine ⟨EncodeFixedBits.addI x, _, finish_eq .ok _, ?_, ?_, fun j hj => ?_, rfl⟩
  · rw [State.setStatus_I, State.setV_I, State.setI_I, BitVec.toNat_ofNat]
    omega
  · rw [State.setStatus_getV, ← vf, State.setV_getV_same, overflow12Flag, flagByte_decide]
  · exact State.setV_getV_ne _ _ (List.ne_of_not_mem_cons hj)

/-- Settles O29: the address of the digit, whole or reduced. -/
theorem fontAddressIsFiveTimesTheDigit : Obligations.FontAddressIsFiveTimesTheDigit := by
  intro x s
  refine ⟨EncodeFixedBits.ldF x, ⟨_, finish_eq .ok _, ?_, rfl⟩, ⟨_, finish_eq .ok _, ?_, rfl⟩⟩
  · exact fontAddress_toNat .none (s.getV x)
  · rw [← fontDigit_lowNibble_toNat]
    exact fontAddress_toNat .lowNibble (s.getV x)

end Sys2Proof.Machine
end

section
/-! SUPPORT. The rules that the proofs about the display (spec/44_display.md) share: the state that a completed DRW
leaves, read pixel by pixel and at VF, the instructions that write pixels, and how an instruction confines them. -/
namespace Sys2Proof.Machine

/-- The word Dxyn as a number. -/
theorem encode_drw (x y : RegId) (n : Nibble) :
    encode (.drw x y n) = BitVec.ofNat 16 (0xD000 + x.toNat * 0x100 + y.toNat * 0x10 + n.toNat) := by
  apply BitVec.eq_of_toNat_eq
  have hx : x.toNat < 2 ^ 4 := x.isLt
  have hy : y.toNat < 2 ^ 4 := y.isLt
  have hn : n.toNat < 2 ^ 4 := n.isLt
  rw [encode, BitVec.toNat_append, BitVec.toNat_append, BitVec.toNat_append, ← Nat.shiftLeft_add_eq_or_of_lt hn,
    ← Nat.shiftLeft_add_eq_or_of_lt hy, ← Nat.shiftLeft_add_eq_or_of_lt hx, Nat.shiftLeft_eq, Nat.shiftLeft_eq,
    Nat.shiftLeft_eq, BitVec.toNat_ofNat, BitVec.toNat_ofNat]
  omega

/-- The n rows of a sprite fit in memory from `a` on, an empty sprite anywhere (spec/20_memory.md R54(b)). -/
theorem inBoundsRange_nibble_iff (a : Nat) (n : Nibble) :
    inBoundsRange a n.toNat = true ↔ n = 0 ∨ a + n.toNat - 1 ≤ 0xFFF := by
  rw [inBoundsRange_iff, ← BitVec.toNat_inj]
  rfl

theorem flagByte_eq_one_iff (b : Bool) : flagByte b = 1 ↔ b = true := by
  cases b <;> decide

theorem flagByte_eq_zero_iff (b : Bool) : flagByte b = 0 ↔ ¬ b = true := by
  cases b <;> decide

/-- A sprite whose anchor is off the grid has no bit on it (spec/44_display.md R186). -/
theorem spriteBit_of_anchor_off (bytes : List Byte) {xa ya : Byte} (h : 64 ≤ xa.toNat ∨ 32 ≤ ya.toNat)
    (c : Fin 64) (r : Fin 32) : spriteBit bytes xa ya c r = false := by
  rcases h with h | h
  · have hc : ¬ xa.toNat ≤ c.val := by omega
    simp [spriteBit, hc]
  · have hr : ¬ ya.toNat ≤ r.val := by omega
    simp [spriteBit, hr]

/-! A completed DRW. -/

/-- The sprite that Dxyn reads: the n bytes from I on (spec/44_display.md R186). -/
def State.sprite (s : State) (n : Nibble) : List Byte := s.mem.readBytes s.I.toNat n.toNat

theorem State.sprite_eq_map (s : State) (n : Nibble) :
    s.sprite n = (List.range n.toNat).map (fun k => s.readByte (s.I.toNat + k)) := by
  apply List.ext_getElem?
  intro k
  rw [State.sprite, Memory.readBytes_getElem?, List.getElem?_map]
  by_cases hk : k < n.toNat
  · simp [hk, State.readByte]
  · simp [hk]

/-- The grid that Dxyn leaves, and whether it hit a set pixel. -/
def State.blit (s : State) (x y : RegId) (n : Nibble) : Framebuffer × Bool :=
  drawSprite s.fb (s.getV x) (s.getV y) (s.sprite n)

/-- The state that Dxyn leaves when its sprite lies in memory. -/
def State.drawn (s : State) (x y : RegId) (n : Nibble) : State :=
  ((s.setFb (s.blit x y n).1).setV vf (flagByte (s.blit x y n).2)).setStatus .redraw

theorem execDrw_of_inBounds {s : State} (x y : RegId) {n : Nibble} (h : inBoundsRange s.I.toNat n.toNat = true) :
    execDrw x y n s = .next (s.drawn x y n) :=
  if_pos h

theorem execDrw_of_outOfBounds {s : State} (x y : RegId) {n : Nibble}
    (h : ¬ inBoundsRange s.I.toNat n.toNat = true) : execDrw x y n s = raise .memoryBounds (.drw x y n) s :=
  if_neg h

section
variable (s : State) (x y : RegId) (n : Nibble)

theorem State.drawn_eq :
    s.drawn x y n = { s with fb := (s.drawn x y n).fb, V := (s.drawn x y n).V, status := some .redraw } := rfl

@[simp] theorem State.drawn_sprite (m : Nibble) : (s.drawn x y n).sprite m = s.sprite m := rfl

@[simp] theorem State.drawn_fb : (s.drawn x y n).fb = (s.blit x y n).1 := rfl

theorem State.drawn_getV_vf : (s.drawn x y n).getV vf = flagByte (s.blit x y n).2 :=
  State.setV_getV_same _ vf _

theorem State.drawn_getV_ne {j : RegId} (h : j ≠ vf) : (s.drawn x y n).getV j = s.getV j :=
  State.setV_getV_ne _ _ h

theorem State.drawn_keepsRegs : KeepsRegs [vf] s (s.drawn x y n) :=
  fun _ hj => s.drawn_getV_ne x y n (List.ne_of_not_mem_cons hj)

theorem State.drawn_pixel (c : Fin 64) (r : Fin 32) :
    (s.drawn x y n).pixel c r = (s.pixel c r ^^ spriteBit (s.sprite n) (s.getV x) (s.getV y) c r) :=
  drawSprite_get s.fb (s.getV x) (s.getV y) (s.sprite n) c r

theorem State.blit_collided : (s.blit x y n).2 = true ↔
    ∃ c r, spriteBit (s.sprite n) (s.getV x) (s.getV y) c r = true ∧ s.pixel c r = true :=
  drawSprite_collided s.fb (s.getV x) (s.getV y) (s.sprite n)

/-- The anchor and the sprite of a draw are those of the next one, if the flag did not overwrite the anchor. -/
theorem State.drawn_blit {x y : RegId} (hx : x ≠ vf) (hy : y ≠ vf) : (s.drawn x y n).blit x y n =
    drawSprite (s.blit x y n).1 (s.getV x) (s.getV y) (s.sprite n) := by
  rw [State.blit, State.drawn_getV_ne _ _ _ _ hx, State.drawn_getV_ne _ _ _ _ hy, State.drawn_sprite, State.drawn_fb]

end

/-! The instructions that write pixels. -/

/-- Only CLS and DRW write pixels (spec/44_display.md R187). -/
theorem Writes_fb {s u : State} {i : Instr} (h : Writes s u i) :
    u.fb = s.fb ∨ i = .cls ∨ ∃ x y n, i = .drw x y n := by
  cases i with
  | sys nnn => exact h.elim
  | cls => exact .inr (.inl rfl)
  | drw x y n => exact .inr (.inr ⟨x, y, n, rfl⟩)
  | ret => obtain ⟨l, w, -, h⟩ := h; exact .inl (by rw [h])
  | call _ | seImm _ _ | sneImm _ _ | seReg _ _ | sneReg _ _ | skp _ | sknp _ | ldI _ | addI _ | ldF _ | ldB _
  | ldMemVx _ | ldVxMem _ => exact .inl (by rw [h.2])
  | _ => exact .inl (by rw [Writes] at h; rw [h])

/-- From states that differ in pixels alone `f` leads to states that differ in pixels alone. -/
def ConfinesPixels (f : State → Result) : Prop :=
  ∀ (s t : State) (g : Framebuffer), f s = .next t → ∃ g', f (s.setFb g) = .next (t.setFb g')

theorem ConfinesPixels.finish {st : Status} {f : State → State}
    (h : ∀ s g, ∃ g', f (s.setFb g) = (f s).setFb g') : ConfinesPixels (fun s => finish st (f s)) := by
  intro s t g ht
  obtain ⟨g', hg⟩ := h s g
  rw [finish_next.1 ht]
  exact ⟨g', finish_next.2 (by rw [hg]; rfl)⟩

theorem ConfinesPixels.raise (kind : FaultKind) (i : Instr) : ConfinesPixels (raise kind i) := by
  intro s t g ht
  cases ht
  exact ⟨g, rfl⟩

theorem ConfinesPixels.ite {c : State → Bool} {f k : State → Result} (hc : ∀ s g, c (s.setFb g) = c s)
    (hf : ConfinesPixels f) (hk : ConfinesPixels k) : ConfinesPixels (fun s => if c s then f s else k s) := by
  intro s t g ht
  by_cases hs : c s = true
  · obtain ⟨g', hg⟩ := hf s t g ((if_pos hs).symm.trans ht)
    exact ⟨g', (if_pos ((hc s g).trans hs)).trans hg⟩
  · obtain ⟨g', hg⟩ := hk s t g ((if_neg hs).symm.trans ht)
    exact ⟨g', (if_neg (by rwa [hc])).trans hg⟩

theorem State.skipIf_setFb (s : State) (g : Framebuffer) (taken : Bool) :
    (s.setFb g).skipIf taken = (s.skipIf taken).setFb g := by
  cases taken <;> rfl

theorem State.setRegs_setFb (s : State) (g : Framebuffer) (k : Nat) (bs : List Byte) :
    (s.setFb g).setRegs k bs = (s.setRegs k bs).setFb g := by
  induction bs generalizing s k with
  | nil => rfl
  | cons b bs ih => exact ih (s.setV (BitVec.ofNat 4 k) b) (k + 1)

theorem State.getRegs_setFb (s : State) (g : Framebuffer) (k n : Nat) :
    (s.setFb g).getRegs k n = s.getRegs k n := by
  induction n generalizing k with
  | zero => rfl
  | succ n ih => rw [State.getRegs, ih]; rfl

theorem execRet_confinesPixels : ConfinesPixels execRet := by
  intro s t g h
  rcases List.eq_nil_or_concat' s.stack with hs | ⟨l, w, hs⟩
  · cases (execRet_of_empty hs).symm.trans h
    exact ⟨g, execRet_of_empty (s := s.setFb g) hs⟩
  · cases (execRet_of_append hs).symm.trans h
    exact ⟨g, execRet_of_append (s := s.setFb g) hs⟩

theorem execCall_confinesPixels (nnn : Addr) : ConfinesPixels (execCall nnn) := by
  intro s t g h
  by_cases hroom : s.stack.length < stackCapacity
  · cases (execCall_of_room nnn hroom).symm.trans h
    exact ⟨g, execCall_of_room (s := s.setFb g) nnn hroom⟩
  · cases (execCall_of_full nnn hroom).symm.trans h
    exact ⟨g, execCall_of_full (s := s.setFb g) nnn hroom⟩

/-- No instruction but DRW reads a pixel (spec/44_display.md R187). -/
theorem exec_confinesPixels {i : Instr} (hi : ∀ x y n, i ≠ .drw x y n) : ConfinesPixels (exec i) := by
  cases i with
  | drw x y n => exact absurd rfl (hi x y n)
  | sys nnn => exact .raise _ _
  | ret => exact execRet_confinesPixels
  | call nnn => exact execCall_confinesPixels nnn
  | seImm _ _ | sneImm _ _ | seReg _ _ | sneReg _ _ => exact .finish fun s g => ⟨g, s.skipIf_setFb g _⟩
  | skp _ | sknp _ => exact .finish fun s g => ⟨g, s.draw.skipIf_setFb g _⟩
  | ldB x => exact .ite (fun _ _ => rfl) (.finish fun s g => ⟨g, rfl⟩) (.raise _ _)
  | ldMemVx x =>
    refine .ite (fun _ _ => rfl) (.finish fun s g => ⟨g, ?_⟩) (.raise _ _)
    rw [State.getRegs_setFb]; rfl
  | ldVxMem x => exact .ite (fun _ _ => rfl) (.finish fun s g => ⟨g, s.setRegs_setFb g 0 _⟩) (.raise _ _)
  | cls => exact .finish fun _ _ => ⟨Framebuffer.clear, rfl⟩
  | _ => exact .finish fun _ g => ⟨g, rfl⟩

end Sys2Proof.Machine
end

section
/-! PROOFS. The statements about the display (spec/44_display.md). -/
namespace Sys2Proof.Machine

open Sys2Proof.Laws

/-- Settles O34, by the range of the sprite. -/
theorem drawsTheSprite : Obligations.DrawsTheSprite := by
  intro x y n s bytes hbytes
  rw [← State.sprite_eq_map] at hbytes
  subst hbytes
  refine ⟨EncodeFixedBits.drw x y n, fun hfit => ?_, fun f hne hpast hpc => ?_⟩
  · have hin := (inBoundsRange_nibble_iff s.I.toNat n).2 hfit
    refine ⟨_, execDrw_of_inBounds x y hin, s.drawn_pixel x y n, fun hit => ?_, fun miss => ?_,
      s.drawn_keepsRegs x y n, s.drawn_eq x y n⟩
    · rw [← s.blit_collided] at hit
      exact (s.drawn_getV_vf x y n).trans ((flagByte_eq_one_iff _).2 hit)
    · rw [← s.blit_collided] at miss
      exact (s.drawn_getV_vf x y n).trans ((flagByte_eq_zero_iff _).2 miss)
  · have hout : ¬ inBoundsRange s.I.toNat n.toNat = true := by
      rw [inBoundsRange_nibble_iff, not_or, not_le]
      exact ⟨hne, hpast⟩
    exact (execDrw_of_outOfBounds x y hout).trans (raise_of_fetchedAt (encode_drw x y n) hpc)

/-- Settles O35: the second draw has the anchor and the sprite of the first, and starts from its pixels. -/
theorem drawingTwiceRestoresThePixels : Obligations.DrawingTwiceRestoresThePixels := by
  intro x y n s hx hy hfit
  have hin := (inBoundsRange_nibble_iff s.I.toNat n).2 hfit
  have hblit := s.drawn_blit n hx hy
  have hflag : ((s.drawn x y n).drawn x y n).getV vf = 1 ↔
      ∃ c r, spriteBit (s.sprite n) (s.getV x) (s.getV y) c r = true ∧ s.pixel c r = false := by
    rw [State.drawn_getV_vf, flagByte_eq_one_iff, hblit]
    exact drawSprite_twice_collided s.fb (s.getV x) (s.getV y) (s.sprite n)
  rw [← State.sprite_eq_map]
  refine ⟨s.drawn x y n, (s.drawn x y n).drawn x y n, execDrw_of_inBounds x y hin,
    execDrw_of_inBounds (s := s.drawn x y n) x y hin, fun c r => ?_, hflag, fun hclear => ?_⟩
  · rw [State.pixel, State.drawn_fb, hblit]
    exact drawSprite_twice_get s.fb (s.getV x) (s.getV y) (s.sprite n) c r
  · exact hflag.trans (exists_congr fun c => exists_congr fun r => and_iff_left_of_imp (hclear c r))

/-- Settles O36: the sprite has no bit on the grid, so that no pixel is toggled or hit. -/
theorem anchorOffTheGridDrawsNothing : Obligations.AnchorOffTheGridDrawsNothing := by
  intro x y n s hfit hoff
  have hbit := spriteBit_of_anchor_off (s.sprite n) hoff
  refine ⟨s.drawn x y n, execDrw_of_inBounds x y ((inBoundsRange_nibble_iff _ n).2 hfit), fun c r => ?_, ?_, rfl⟩
  · rw [State.drawn_pixel, hbit, Bool.xor_false]
  · refine (s.drawn_getV_vf x y n).trans ((flagByte_eq_zero_iff _).2 fun hit => ?_)
    obtain ⟨c, r, hset, -⟩ := (s.blit_collided x y n).1 hit
    rw [hbit] at hset
    cases hset

/-- Settles O49: only a completed instruction changes the grid, and of these only CLS and DRW. -/
theorem pixelsChangeOnlyByClsAndDrw : Obligations.PixelsChangeOnlyByClsAndDrw := by
  intro s t c r h hne
  rcases step_completed_or_kept h with ⟨i, b, u, hr, -, hd, e, hw, rfl⟩ | ⟨⟨-, -, -, hfb⟩, -⟩
  · have hbf : b.fb = s.fb := by rw [e]
    rcases Writes_fb hw with hu | hi
    · exact absurd (congrArg (Framebuffer.get · c r) (hu.trans hbf)) hne
    · exact ⟨hr, i, hd, hi⟩
  · exact absurd (congrArg (Framebuffer.get · c r) hfb) hne

/-- Settles O50: DRW, when it completes, lets the pixels into the grid and VF alone, and no other instruction reads
one. -/
theorem pixelsAreSeenOnlyAsCollision : Obligations.PixelsAreSeenOnlyAsCollision := by
  intro i s t g h
  by_cases hi : ∀ x y n, i ≠ .drw x y n
  · obtain ⟨g', hu⟩ := exec_confinesPixels hi s t g h
    exact ⟨t.setFb g', hu, rfl, fun _ _ => rfl, fun _ => rfl⟩
  · push Not at hi
    obtain ⟨x, y, n, rfl⟩ := hi
    by_cases hin : inBoundsRange s.I.toNat n.toNat = true
    · cases (execDrw_of_inBounds x y hin).symm.trans h
      refine ⟨(s.setFb g).drawn x y n, execDrw_of_inBounds (s := s.setFb g) x y hin, rfl, fun j hj => ?_,
        fun hno => absurd rfl (hno x y n)⟩
      have hne : j ≠ vf := List.ne_of_not_mem_cons hj
      rw [State.drawn_getV_ne _ x y n hne, State.drawn_getV_ne _ x y n hne, State.setFb_getV]
    · cases (execDrw_of_outOfBounds x y hin).symm.trans h
      exact ⟨_, execDrw_of_outOfBounds (s := s.setFb g) x y hin, rfl, fun _ _ => rfl, fun _ => rfl⟩

/-- Settles O33: CLS writes the clear grid. -/
theorem clearsTheDisplay : Obligations.ClearsTheDisplay :=
  ⟨rfl, fun s => ⟨_, finish_eq .redraw (s.setFb Framebuffer.clear), Framebuffer.get_clear, rfl⟩⟩

end Sys2Proof.Machine
end

section
/-! SUPPORT. The rules that the proofs about keys and timers (spec/45_input_timers.md) share: which values name a pressed
key, what KeyPress does in a key wait, and the level that a sound timer gives. -/
namespace Sys2Proof.Machine

/-- A value above 0xF names no key of the sampled set (45_input_timers.md R190). -/
theorem keyPressed_iff (pressed : BitVec 16) (v : Byte) :
    keyPressed pressed v = true ↔ v.toNat ≤ 0xF ∧ pressed.getLsbD v.toNat = true :=
  (and_iff_right_of_imp fun h => Nat.le_of_lt_succ (BitVec.lt_of_getLsbD h)).symm

theorem skpWith_next (pressed : BitVec 16) (x : RegId) (s : State) :
    skpWith pressed x s =
      .next { s with
        pc := if (s.getV x).toNat ≤ 0xF ∧ pressed.getLsbD (s.getV x).toNat = true then s.pc + 2 else s.pc,
        status := some .ok } := by
  simp only [skpWith, finish_skipIf, keyPressed_iff]

/-- SKNP skips exactly where SKP does not. -/
theorem sknpWith_next (pressed : BitVec 16) (x : RegId) (s : State) :
    sknpWith pressed x s =
      .next { s with
        pc := if (s.getV x).toNat ≤ 0xF ∧ pressed.getLsbD (s.getV x).toNat = true then s.pc else s.pc + 2,
        status := some .ok } := by
  simp only [sknpWith, finish_skipIf, Bool.not_eq_true', ← Bool.not_eq_true, keyPressed_iff, ite_not]

theorem keyPress_of_keyWait {s : State} {x : RegId} (k : Nibble) (hr : s.run = .keyWait x) :
    keyPress k s = finish .ok ((s.setV x (k.setWidth 8)).setRun .running) := by
  simp [keyPress, hr]

theorem State.soundOn_iff (s : State) : s.soundOn = true ↔ s.ST ≠ 0 :=
  bne_iff_ne

end Sys2Proof.Machine
end

section
/-! PROOFS. The statements about keys and timers (spec/45_input_timers.md). -/
namespace Sys2Proof.Machine

open Sys2Proof.Laws

/-- Settles O37: exec samples the set and draws once; each skip is then a skip on the set. -/
theorem skipsOnAKey : Obligations.SkipsOnAKey := fun x _ =>
  ⟨EncodeFixedBits.skp x, EncodeFixedBits.sknp x, rfl, rfl,
    fun pressed u => ⟨skpWith_next pressed x u, sknpWith_next pressed x u⟩⟩

/-- Settles O38: the delay timer is a plain result. -/
theorem readsTheDelayTimer : Obligations.ReadsTheDelayTimer :=
  fun x s => ⟨EncodeFixedBits.ldVxDt x, writeResult_next x s.DT s⟩

/-- Settles O39: the run status and the status are all that Fx0A writes. -/
theorem keyWaitSuspends : Obligations.KeyWaitSuspends :=
  fun x s => ⟨EncodeFixedBits.ldVxK x, finish_eq .blocked (s.setRun (.keyWait x))⟩

/-- Settles O40, by the run status; a key id fits in the low nibble of Vx. -/
theorem keyPressEndsTheWait : Obligations.KeyPressEndsTheWait := by
  intro s k es he
  refine ⟨fun x hr => ?_, fun hr t ht => ?_⟩
  · have hstep : step s = finish .ok (((s.setEvents es).setV x (k.setWidth 8)).setRun .running) :=
      (step_of_listed he).trans (keyPress_of_keyWait k hr)
    refine ⟨_, hstep, ?_, fun j hj => ?_, rfl⟩
    · rw [State.setStatus_getV, State.setRun_getV, State.setV_getV_same,
        BitVec.toNat_setWidth_of_le (by decide)]
    · exact State.setV_getV_ne _ _ (List.ne_of_not_mem_cons hj)
  · obtain ⟨-, hstop⟩ := disabledEventsStop
    cases (hstop s k es hr he).symm.trans ht

/-- Settles O41: each timer takes Vx, and sound_on is read from the sound timer. -/
theorem setsTheTimers : Obligations.SetsTheTimers := fun x s =>
  ⟨EncodeFixedBits.ldDtVx x, EncodeFixedBits.ldStVx x, finish_eq .ok (s.setDT (s.getV x)),
    _, finish_eq .ok (s.setST (s.getV x)), rfl, State.soundOn_iff _⟩

end Sys2Proof.Machine
end

section
/-! SUPPORT. The rules that the proofs about faults and events (spec/60_exceptions.md) share: what an instruction does to
the run status, what keeps a fault record exact, what a step does in Faulted and in a key wait, and one count of a timer. -/
namespace Sys2Proof.Machine

/-- Of the run status, an instruction writes a fault of its own, the key wait of Fx0A, or nothing. -/
theorem exec_run_cases {i : Instr} {s t : State} (h : exec i s = .next t) :
    (∃ kind, CanRaise kind i ∧ takeFault kind (encode i) s = .next t) ∨
      t.run = s.run ∨ ∃ x, i = .ldVxK x ∧ t.run = .keyWait x := by
  rcases exec_cases i s with ⟨kind, hk, hx⟩ | ⟨u, hw, hx⟩
  · exact .inl ⟨kind, hk, hx.symm.trans h⟩
  · rw [finish_next.1 (hx.symm.trans h), State.setStatus_run]
    exact .inr (Writes_run hw)

/-- The fault an instruction raises is one that its word can raise (spec/60_exceptions.md R200). -/
theorem CanRaise.matchesOpcode {kind : FaultKind} {i : Instr} {op : Word} (h : CanRaise kind i)
    (hd : decodeWord op = .ok i) : kind.matchesOpcode op := by
  cases i with
  | sys nnn => cases h; exact .inl ⟨nnn, hd⟩
  | call nnn => cases h; exact ⟨nnn, hd⟩
  | ret => cases h; exact hd
  | drw x y n => cases h; exact .inl ⟨x, y, n, hd⟩
  | ldB x => cases h; exact .inr ⟨x, .inl hd⟩
  | ldMemVx x => cases h; exact .inr ⟨x, .inr (.inl hd)⟩
  | ldVxMem x => cases h; exact .inr ⟨x, .inr (.inr hd)⟩
  | _ => exact h.elim

/-! The fault record (spec/60_exceptions.md R201). -/

theorem State.FaultExact.of_not_faulted {s : State} (h : ∀ kind op f, s.run ≠ .faulted kind op f) : s.FaultExact :=
  fun kind op f hf => absurd hf (h kind op f)

/-- The record's exactness speaks of the run status, pc and memory alone. -/
theorem State.FaultExact.of_keeps {s t : State} (hs : s.FaultExact) (hrun : t.run = s.run) (hpc : t.pc = s.pc)
    (hmem : t.mem = s.mem) : t.FaultExact := by
  intro kind op f hf
  simp only [State.readByte, hpc, hmem]
  exact hs kind op f (hrun.symm.trans hf)

/-- A fault taken after the fetch, of a kind that the fetched word can raise, has an exact record. -/
theorem faultExact_of_takeFault_advance {kind : FaultKind} {s t : State} (hb : inBoundsFetch s.pc = true)
    (hm : kind.matchesOpcode s.fetchOpcode) (h : takeFault kind s.fetchOpcode s.advance = .next t) :
    t.FaultExact := by
  cases (takeFault_advance kind s.fetchOpcode s).symm.trans h
  intro _ _ _ hf
  cases hf
  exact ⟨rfl, (inBoundsFetch_iff s.pc).1 hb, rfl, hm⟩

/-- An instruction of a Running core, fetched at pc, leaves no record or an exact one. -/
theorem faultExact_of_exec_advance {i : Instr} {s t : State} (hr : s.run = .running)
    (hb : inBoundsFetch s.pc = true) (hd : decodeWord s.fetchOpcode = .ok i) (h : exec i s.advance = .next t) :
    t.FaultExact := by
  rcases exec_run_cases h with ⟨kind, hk, hx⟩ | hrun | ⟨x, -, hrun⟩
  · obtain ⟨hop, -⟩ := encode_of_decodeWord hd
    rw [hop] at hx
    exact faultExact_of_takeFault_advance hb (hk.matchesOpcode hd) hx
  · exact .of_not_faulted fun kind op f hf => by cases (hrun.trans hr).symm.trans hf
  · exact .of_not_faulted fun kind op f hf => by cases hrun.symm.trans hf

/-! A step by the run status it starts from. -/

/-- From Faulted only a Step, which repeats the fault, and a Tick answer (spec/60_exceptions.md R206, R213). -/
theorem step_next_of_faulted {s t : State} {kind : FaultKind} {op f : Word} (hr : s.run = .faulted kind op f)
    (h : step s = .next t) :
    ∃ s', s' = { s with events := s'.events, draws := s'.draws } ∧
      (t = s'.setStatus (.fault kind op f) ∨ t = tick s') := by
  obtain ⟨s', e, h⟩ := step_next_cases h
  refine ⟨s', e, ?_⟩
  rcases h with ⟨_, _, _, hf, ht⟩ | ⟨hrun, -⟩ | ⟨_, hrun, -⟩ | ⟨_, hrun, -⟩ | ht | ⟨_, _, hrun, -⟩
  · cases hr.symm.trans hf; exact .inl ht
  · cases hr.symm.trans hrun
  · cases hr.symm.trans hrun
  · cases hr.symm.trans hrun
  · exact .inr ht
  · cases hr.symm.trans hrun

/-- From a key wait only a Tick and a KeyPress answer (spec/60_exceptions.md R220). -/
theorem step_next_of_keyWait {s t : State} {x : RegId} (hr : s.run = .keyWait x) (h : step s = .next t) :
    ∃ s', s' = { s with events := s'.events, draws := s'.draws } ∧
      (t = tick s' ∨ ∃ k : Nibble, t = ((s'.setV x (k.setWidth 8)).setRun .running).setStatus .ok) := by
  obtain ⟨s', e, h⟩ := step_next_cases h
  refine ⟨s', e, ?_⟩
  rcases h with ⟨_, _, _, hrun, -⟩ | ⟨hrun, -⟩ | ⟨_, hrun, -⟩ | ⟨_, hrun, -⟩ | ht | ⟨k, _, hk, ht⟩
  · cases hr.symm.trans hrun
  · cases hr.symm.trans hrun
  · cases hr.symm.trans hrun
  · cases hr.symm.trans hrun
  · exact .inl ht
  · cases hr.symm.trans hk; exact .inr ⟨k, ht⟩

/-- Outside a key wait, only Fx0A enters one (spec/45_input_timers.md R193). -/
theorem step_enters_keyWait {s t : State} {x : RegId} (hs : ∀ y, s.run ≠ .keyWait y) (h : step s = .next t)
    (ht : t.run = .keyWait x) : s.run = .running ∧ decodeWord s.fetchOpcode = .ok (.ldVxK x) := by
  obtain ⟨s', e, h⟩ := step_next_cases h
  have er : s'.run = s.run := by rw [e]
  rcases h with ⟨_, _, _, -, rfl⟩ | ⟨-, -, rfl⟩ | ⟨i, hr, -, hd, hi⟩ | ⟨_, -, -, -, hx⟩ | rfl | ⟨_, y, hy, -⟩
  · exact absurd (er.symm.trans ht) (hs x)
  · exact absurd (er.symm.trans ht) (hs x)
  · rcases exec_run_cases hi with ⟨kind, -, hx⟩ | hrun | ⟨y, rfl, hrun⟩
    · cases hx; cases ht
    · exact absurd (er.symm.trans (hrun.symm.trans ht)) (hs x)
    · cases hrun.symm.trans ht
      exact ⟨hr, hd⟩
  · cases hx; cases ht
  · exact absurd (er.symm.trans ht) (hs x)
  · exact absurd hy (hs y)

theorem countDown_toNat (t : Byte) : (countDown t).toNat = t.toNat - 1 := by
  unfold countDown
  split
  case isTrue h => rw [h]; rfl
  case isFalse h => bv_omega

end Sys2Proof.Machine
end

section
/-! PROOFS. The statements about faults and events (spec/60_exceptions.md). -/
namespace Sys2Proof.Machine

/-- Settles O47: a step that runs no instruction keeps the record, pc and memory, or records an INVALID word; one that
runs an instruction leaves no record or that of the word it fetched. -/
theorem stepKeepsTheFaultRecordExact : Obligations.StepKeepsTheFaultRecordExact := by
  intro s t hs h
  obtain ⟨s', e, h⟩ := step_next_cases h
  have hs' : s'.FaultExact := hs.of_keeps (by rw [e]) (by rw [e]) (by rw [e])
  have er : s'.run = s.run := by rw [e]
  have ep : s'.pc = s.pc := by rw [e]
  have eo : s'.fetchOpcode = s.fetchOpcode := by rw [e]; rfl
  rw [← er, ← ep, ← eo] at h
  rcases h with ⟨_, _, _, -, rfl⟩ | ⟨-, -, rfl⟩ | ⟨i, hr, hb, hd, hi⟩ | ⟨err, -, hb, hd, ht⟩ | rfl | ⟨k, x, -, rfl⟩
  · exact hs'.of_keeps rfl rfl rfl
  · exact hs'.of_keeps rfl rfl rfl
  · exact faultExact_of_exec_advance hr hb hd hi
  · have hm : FaultKind.invalidOpcode.matchesOpcode s'.fetchOpcode := .inr ⟨err, hd⟩
    exact faultExact_of_takeFault_advance hb hm ht
  · exact hs'.of_keeps rfl rfl rfl
  · exact .of_not_faulted fun _ _ _ hf => by cases hf

/-- Settles O43: in a key wait only a Tick and a KeyPress answer, and outside one only Fx0A enters it. -/
theorem keyWaitIsEnteredAndLeftAsStated : Obligations.KeyWaitIsEnteredAndLeftAsStated := by
  refine ⟨fun s t x hr h => ?_, fun s t x hs h ht => step_enters_keyWait hs h ht⟩
  obtain ⟨s', e, rfl | ⟨k, rfl⟩⟩ := step_next_of_keyWait hr h
  · exact .inl (by rw [e]; rfl)
  · refine .inr ⟨k, State.setV_getV_same s' x _, fun j hj => ?_, by rw [e]; rfl⟩
    have hset : (s'.setV x (k.setWidth 8)).getV j = s'.getV j := State.setV_getV_ne s' _ (List.ne_of_not_mem_cons hj)
    exact hset.trans (by rw [e]; rfl)

/-- Settles O44: a Step writes the same FAULT to the status alone, a Tick the timers alone. -/
theorem faultedIsAbsorbing : Obligations.FaultedIsAbsorbing := by
  intro s t kind op f hr h
  obtain ⟨s', e, rfl | rfl⟩ := step_next_of_faulted hr h
  · exact ⟨by rw [e]; rfl, .inr rfl⟩
  · exact ⟨by rw [e]; rfl, .inl (by rw [e]; rfl)⟩

/-- Settles O48: an instruction that completes leaves the core Running or in a key wait, so the fault is one it raised. -/
theorem faultsArePrecise : Obligations.FaultsArePrecise := by
  intro i s t kind op f hr h hf
  rcases exec_run_cases h with ⟨_, -, hx⟩ | hrun | ⟨x, -, hrun⟩
  · cases hx; cases hf
    exact ⟨rfl, rfl, rfl⟩
  · cases (hrun.trans hr).symm.trans hf
  · cases hrun.symm.trans hf

/-- Settles O42: the Tick is delivered in every run status and writes the two counted timers. -/
theorem tickDecrementsBothTimers : Obligations.TickDecrementsBothTimers := fun s _ he =>
  ⟨_, step_of_listed he, countDown_toNat s.DT, countDown_toNat s.ST, rfl⟩

end Sys2Proof.Machine
end

section
/-! PROOFS. The statement about the boot load (spec/70_reset_and_hazards.md R232). -/
namespace Sys2Proof.Machine

/-- A load whose bytes end at or below 0xFFF writes them from its base on. -/
theorem load_of_add_le {bytes : List Byte} {atFontRegion : Bool} (s : State) {base : Nat}
    (hbase : base = if atFontRegion then 0x000 else 0x200) (h : base + bytes.length ≤ 0x1000) :
    load bytes atFontRegion s = .next (s.setMem (s.mem.writeBytes base bytes)) := by
  subst hbase
  exact (load_eq bytes atFontRegion s).trans (if_pos (inBoundsRange_of_add_le h))

/-- A load that would pass 0xFFF is refused: with either base it has bytes, so its range is not the empty one. -/
theorem load_of_lt_add {bytes : List Byte} {atFontRegion : Bool} (s : State) {base : Nat}
    (hbase : base = if atFontRegion then 0x000 else 0x200) (h : 0x1000 < base + bytes.length) :
    load bytes atFontRegion s = .refused .loadPastTop := by
  have hle : base ≤ 0x200 := by cases atFontRegion <;> simp [hbase]
  have hout : ¬ inBoundsRange base bytes.length = true := by
    rw [inBoundsRange_iff]
    omega
  subst hbase
  exact (load_eq bytes atFontRegion s).trans (if_neg hout)

/-- Settles O55: a load is one write of consecutive bytes when they fit, and the refusal when they do not. -/
theorem loadCopiesTheBytes : Obligations.LoadCopiesTheBytes := by
  intro bytes atFontRegion s base hbase
  refine ⟨fun hfit => ?_, load_of_lt_add s hbase⟩
  refine ⟨_, load_of_add_le s hbase hfit, fun k b hk => ?_, fun a ha => ?_, rfl⟩
  · exact Memory.read_writeBytes_of_getElem? s.mem (inBoundsRange_of_add_le hfit) hk
  · exact Memory.read_writeBytes_of_outside s.mem ha

end Sys2Proof.Machine
end
